-- ==== Sys2Proof/Word.lean ====
section
/-! DEFINITION. Word and byte types (00_scope.md R6, R8). -/

namespace Sys2Proof

/-- A 32-bit register value (00_scope.md R6: register width 32). -/
abbrev Word := BitVec 32

/-- A 16-bit register field: GW.W, GH.H and HDR (10_state.md R29, R30, R32). -/
abbrev Half := BitVec 16

/-- One byte of the buffer memory (20_memory.md R52). -/
abbrev Byte := BitVec 8

/-- A bit sequence, first element leftmost (00_scope.md R9). -/
abbrev Bits := List Bool

end Sys2Proof
end

