-- ==== Sys2Proof/Syntax.lean ====
section
/-! DEFINITION. The commands (30_encoding.md R70, R71), the transactions a host makes (R76), and the turns of the two
agents (00_scope.md R13). -/

namespace Sys2Proof

/-- The commands of spec/opcode_table.json. A command has no immediate: its operands stand in the operand registers
(30_encoding.md R73). -/
inductive Instr where
  /-- BENC: text to a symbol string (40_bitcodec.md R91). -/
  | benc
  /-- BDEC: symbol string to text (40_bitcodec.md R94). -/
  | bdec
  /-- EMBED: header and payload into the red LSBs of a grid (41_steganographer.md R110). -/
  | embed
  /-- EXTRACT: header and payload from the red LSBs of a grid (41_steganographer.md R120). -/
  | extract
  deriving DecidableEq, Repr

/-- The two fields of a command word (30_encoding.md R70). -/
structure CmdFields where
  /-- Bits 3:0, the opcode. -/
  opc : BitVec 4
  /-- Bits 31:4, reserved. -/
  rsv : BitVec 28
  deriving DecidableEq, Repr

/-- Why a command word is illegal (30_encoding.md R72). -/
inductive DecodeReject where
  /-- A reserved bit, 31:4, is set. -/
  | reservedBits (rsv : BitVec 28)
  /-- The opcode is 0x0 or 0x5 to 0xF. -/
  | reservedOpcode (opc : BitVec 4)
  deriving DecidableEq, Repr

/-- The slots of the register window (10_state.md R20). -/
inductive Reg where
  | ctrl | cmd | status | src | slen | dst | grid | gw | gh | rlen | hdr | bitcnt
  /-- The reserved slots 0x30 to 0x3C (10_state.md R34). -/
  | reserved
  deriving DecidableEq, Repr

/-- A host transaction (30_encoding.md R76). `width` is the access width in bits: an access of a width the port does
not admit is a transaction too, and gets a bus error (20_memory.md R57, R58). A register offset is an offset in the
64-byte window (R50), a buffer offset any offset from BUF_BASE. Data is as wide as the port (log entry 5). -/
inductive Transaction where
  | regRead (width : Nat) (offset : Fin 64)
  | regWrite (width : Nat) (offset : Fin 64) (data : Word)
  | bufRead (width : Nat) (offset : Nat)
  | bufWrite (width : Nat) (offset : Nat) (data : Byte)
  /-- Assert `rst` (70_reset_and_hazards.md R170). -/
  | reset
  deriving DecidableEq, Repr

/-- What the host gets back from a transaction (20_memory.md R57, R58). -/
inductive Response where
  /-- The value of a register read. -/
  | regData (v : Word)
  /-- The value of a buffer read. -/
  | bufData (v : Byte)
  /-- A write, or a reset, is done; a write that is ignored is answered so too. -/
  | accepted
  /-- The bus error response (60_exceptions.md R146). -/
  | busError
  deriving DecidableEq, Repr

/-- One turn of the interleaving of host and engine (20_memory.md R63, 60_exceptions.md R151). -/
inductive Turn where
  | host (t : Transaction)
  | engine
  deriving DecidableEq, Repr

end Sys2Proof
end

