-- ==== Sys2Proof/WellFormed.lean ====
section
/-! DEFINITION. Well-formed command words and commands (30_encoding.md R70, R71, R74). -/

namespace Sys2Proof

/-- The reserved bits 31:4 are zero (30_encoding.md R70). -/
def CmdFields.rsvZero (f : CmdFields) : Bool := f.rsv == 0

/-- The opcode is one that 30_encoding.md R71 assigns: 0x1 to 0x4. -/
def CmdFields.opcAssigned (f : CmdFields) : Bool :=
  decide (1 ≤ f.opc.toNat) && decide (f.opc.toNat ≤ 4)

/-- A legal command word (30_encoding.md R74). -/
def CmdFields.wf (f : CmdFields) : Bool := f.rsvZero && f.opcAssigned

/-- The fields the opcode map gives a command (30_encoding.md R71). -/
def Instr.fields : Instr → CmdFields
  | .benc => { opc := 0x1, rsv := 0 }
  | .bdec => { opc := 0x2, rsv := 0 }
  | .embed => { opc := 0x3, rsv := 0 }
  | .extract => { opc := 0x4, rsv := 0 }

/-- A command is well-formed when its fields are a legal word's. A command has no operand that could be ill-formed
(30_encoding.md R73). -/
def Instr.wf (i : Instr) : Bool := i.fields.wf

end Sys2Proof
end

