-- ==== Sys2Proof/Decode.lean ====
section
/-! DEFINITION. The decoder of command words, total, rejecting by name (30_encoding.md R70 to R74), and the encoder. -/

namespace Sys2Proof

/-- OPC, bits 3:0 of a command word (30_encoding.md R70). -/
def wordOpc (w : Word) : BitVec 4 := w.extractLsb' 0 4

/-- RSV, bits 31:4 of a command word (30_encoding.md R70). -/
def wordRsv (w : Word) : BitVec 28 := w.extractLsb' 4 28

/-- The fields of a command word (30_encoding.md R70). -/
def wordFields (w : Word) : CmdFields := { opc := wordOpc w, rsv := wordRsv w }

/-- The opcode map (30_encoding.md R71). -/
def decodeOpc (opc : BitVec 4) : Except DecodeReject Instr :=
  match opc.toNat with
  | 0x1 => .ok .benc
  | 0x2 => .ok .bdec
  | 0x3 => .ok .embed
  | 0x4 => .ok .extract
  | _ => .error (.reservedOpcode opc)

/-- Decode (30_encoding.md R72): the reserved bits first, then the opcode. -/
def decode (w : Word) : Except DecodeReject Instr :=
  if wordRsv w = 0 then decodeOpc (wordOpc w) else .error (.reservedBits (wordRsv w))

/-- The opcode of a command (30_encoding.md R71). -/
def encodeOpc : Instr → BitVec 4
  | .benc => 0x1
  | .bdec => 0x2
  | .embed => 0x3
  | .extract => 0x4

/-- The word of a command (30_encoding.md R70): reserved bits zero, then the opcode. -/
def encode (i : Instr) : Word := (0 : BitVec 28) ++ encodeOpc i

/-- The 32-bit command word whose low `nbits` bits are those of `w` and whose other bits are zero. A command word is
exactly 32 bits and is written to CMD whole (30_encoding.md R70), so no byte order arises (20_memory.md R52). -/
def tableWord (nbits w : Nat) : Word := BitVec.ofNat 32 (w % 2 ^ nbits)

/-- The command the decoder reads from an opcode-table row's word. -/
def decodeTableWord (nbits w : Nat) : Option Instr :=
  if w % 2 ^ nbits < 2 ^ 32 then
    match decode (tableWord nbits w) with
    | .ok i => some i
    | .error _ => none
  else none

end Sys2Proof
end

