-- ==== Sys2Proof/Machine/Bits.lean ====
section
/-! DEFINITION. The bit-sequence functions: binary forms (00_scope.md R8, R9), symbols (20_memory.md R54), and the two
pure functions of the codec, BitEncode (40_bitcodec.md R90) and BitDecode (R93). -/

namespace Sys2Proof.Machine

/-- ceil8 (00_scope.md R8). -/
def ceil8 (n : Nat) : Nat := (n + 7) / 8

/-- bin_N(v): the `width`-digit binary form of `v`, most significant digit first (00_scope.md R9). -/
def bin (width v : Nat) : Bits := (List.range width).map fun i => v.testBit (width - 1 - i)

/-- val(s): the unsigned base-2 value, first digit most significant (00_scope.md R9). -/
def val (s : Bits) : Nat := s.foldl (fun acc b => 2 * acc + b.toNat) 0

/-- BitEncode (40_bitcodec.md R90). -/
def bitEncode (t : List Byte) : Bits := t.flatMap fun c => bin 8 c.toNat

/-- The pad length of BitDecode, 0 to 7 (40_bitcodec.md R93). -/
def padLength (n : Nat) : Nat := (8 - n % 8) % 8

/-- The bit sequence left-padded with zero digits to a multiple of 8 (40_bitcodec.md R93). -/
def leftPad (s : Bits) : Bits := List.replicate (padLength s.length) false ++ s

/-- Group `j` of 8 digits (40_bitcodec.md R93). -/
def bitGroup (s : Bits) (j : Nat) : Bits := (s.drop (8 * j)).take 8

/-- BitDecode (40_bitcodec.md R93). -/
def bitDecode (s : Bits) : List Byte :=
  (List.range (ceil8 s.length)).map fun j => BitVec.ofNat 8 (val (bitGroup (leftPad s) j))

/-- The symbol byte of a digit (20_memory.md R54). -/
def symbol (b : Bool) : Byte := if b then 0x31 else 0x30

/-- Symbol parse (40_bitcodec.md R95): 0x30 and 0x31 are digits, and no other byte is. -/
def parseSymbol (c : Byte) : Option Bool :=
  if c = 0x30 then some false else if c = 0x31 then some true else none

/-- The digits of a symbol string, if every symbol is valid (40_bitcodec.md R94, R95). -/
def parseSymbols : List Byte → Option Bits
  | [] => some []
  | c :: cs =>
    match parseSymbol c, parseSymbols cs with
    | some b, some bs => some (b :: bs)
    | _, _ => none

/-- A red byte with its least significant bit replaced by a stream bit (41_steganographer.md R110, R111). -/
def setLsb (r : Byte) (b : Bool) : Byte := (r &&& 0xFE) ||| (if b then 0x01 else 0x00)

/-- The stream EMBED writes: the 16-bit header, then the payload (41_steganographer.md R110, R114). -/
def embedStream (t : List Byte) : Bits := bin 16 (8 * t.length) ++ bitEncode t

end Sys2Proof.Machine
end

