-- ==== Sys2Proof/Config.lean ====
section
/-! DEFINITION. What an implementation of the block fixes, and the free values the spec leaves open. -/

namespace Sys2Proof

/-- The platform parameters that 00_scope.md R6 marks OPEN. State carries them, no step changes them, and so every
claim over all states quantifies over them (log entry 2). -/
structure Config.Params where
  /-- MEM_BYTES: the size of the buffer memory (00_scope.md R6, decision D5). -/
  memBytes : Nat
  /-- REG_BASE: the host bus address of the register window (20_memory.md R50). -/
  regBase : Nat
  /-- BUF_BASE: the host bus address of the buffer window (20_memory.md R50). -/
  bufBase : Nat
  deriving DecidableEq, Repr

/-- The range 00_scope.md R6 gives MEM_BYTES: 1 to 2^32. -/
def Config.Params.wf (p : Config.Params) : Bool :=
  decide (1 ≤ p.memBytes) && decide (p.memBytes ≤ 2 ^ 32)

/-- The parameters State.reset is written with. DESIGN CHOICE (log entry 2): the spec leaves all three open; 4096 is
the size the conventions of 95_test_vectors.md take. No statement rests on these values. -/
def Config.params : Config.Params :=
  { memBytes := 4096, regBase := 0x00000000, bufBase := 0x00010000 }

/-- The `n`-th free byte: what a byte of an abandoned command's write set holds after a reset while busy
(70_reset_and_hazards.md R172; log entry 4). It has no body, so nothing is known of its value. -/
opaque Config.freeByte : Nat → Byte

/-- MAX_EMBED_CHARS: the longest text whose payload length fits the 16-bit header (00_scope.md R6, 41_steganographer.md
R114). -/
def Config.maxEmbedChars : Nat := 8191

/-- HEADER_BITS: the width of the length header (00_scope.md R6). -/
def Config.headerBits : Nat := 16

end Sys2Proof
end

