-- ==== Sys2Proof/Machine/State.lean ====
section
/-! DEFINITION. The state of the block (10_state.md R41), its reset, and the reasons a step could stop. -/

namespace Sys2Proof.Machine

/-- CTRL (10_state.md R21). -/
structure Ctrl where
  /-- CTRL.IE: the interrupt enable. -/
  ie : Bool
  /-- CTRL.TRUNC_EN: EMBED's capacity policy. -/
  truncEn : Bool
  deriving DecidableEq, Repr

/-- The result codes of 60_exceptions.md R140. Codes 9 to 15 are never produced (decision D31; log entry 7). -/
inductive ErrCode where
  | none
  | decodeErr
  | headerErr
  | capacityErr
  | payloadTrunc
  | lengthErr
  | addrErr
  | overlapErr
  | illegalCmd
  deriving DecidableEq, Repr

/-- STATUS (10_state.md R24). -/
structure Status where
  /-- STATUS.BUSY: a command has started and its completion step has not been taken. -/
  busy : Bool
  /-- STATUS.DONE: set by every completion step. -/
  done : Bool
  /-- STATUS.HAZ: the sticky hazard flag. -/
  haz : Bool
  /-- STATUS.ERRCODE: the result code of the last completed command. -/
  errcode : ErrCode
  deriving DecidableEq, Repr

/-- The operand registers (10_state.md R25 to R30). -/
structure OperandRegs where
  src : Word
  slen : Word
  dst : Word
  grid : Word
  gw : Half
  gh : Half
  deriving DecidableEq, Repr

/-- The result registers (10_state.md R31 to R33). -/
structure ResultRegs where
  rlen : Word
  hdr : Half
  bitcnt : Word
  deriving DecidableEq, Repr

/-- The buffer memory as the bytes that are listed, by address; every other byte reads as `unlistedByte`
(10_state.md R38; log entry 3). -/
abbrev Memory := List Host.Cell

/-- The environment of the block, the model's own: what the interleaving will be, what the host has seen, and how many
free bytes have been drawn (log entries 1, 4 and 6). -/
structure Env where
  /-- The turns still to come, first turn first. -/
  script : List Turn
  /-- The transactions made and their responses, latest first (00_scope.md R14). -/
  history : List (Transaction × Response)
  /-- How many free bytes have been drawn (70_reset_and_hazards.md R172). -/
  draws : Nat
  deriving DecidableEq, Repr

/-- The block stops with no fault. Every 32-bit word is a command or completes with ILLEGAL_CMD (30_encoding.md R72),
every error of a command is a result code (60_exceptions.md R140), and a bus error is a response to one host access
(R146), so this type has no constructor (log entry 11). -/
inductive Fault where
  deriving DecidableEq, Repr

/-- Why the model could give an instruction no meaning. -/
inductive Refusal where
  /-- Raised by `exec` for an instruction that has no meaning yet: no arm does so. Safe: the model would stop where the
  block goes on. -/
  | notModelled (mnemonic : String)
  deriving DecidableEq, Repr

/-- The complete state (10_state.md R41), with the parameters of 00_scope.md R6 and the environment beside it. -/
structure State where
  params : Config.Params
  ctrl : Ctrl
  cmd : Word
  status : Status
  operands : OperandRegs
  results : ResultRegs
  mem : Memory
  env : Env
  deriving DecidableEq, Repr

/-- CTRL after reset (70_reset_and_hazards.md R170). -/
def Ctrl.zero : Ctrl := { ie := false, truncEn := false }

/-- STATUS after reset (70_reset_and_hazards.md R170). -/
def Status.zero : Status := { busy := false, done := false, haz := false, errcode := .none }

/-- The operand registers after reset (70_reset_and_hazards.md R170). -/
def OperandRegs.zero : OperandRegs := { src := 0, slen := 0, dst := 0, grid := 0, gw := 0, gh := 0 }

/-- The result registers after reset and after a command's start (70_reset_and_hazards.md R170, 20_memory.md R59). -/
def ResultRegs.zero : ResultRegs := { rlen := 0, hdr := 0, bitcnt := 0 }

/-- The environment before any turn (DESIGN CHOICE, log entries 1, 4 and 6). -/
def Env.start : Env := { script := [], history := [], draws := 0 }

/-- Power-on (70_reset_and_hazards.md R173): every register at its reset value and the buffer holding MEM_INIT. -/
def State.powerOn (p : Config.Params) (init : Memory) : State :=
  { params := p, ctrl := .zero, cmd := 0, status := .zero, operands := .zero, results := .zero, mem := init,
    env := .start }

/-- The machine right after reset (70_reset_and_hazards.md R170, R173), with no byte of memory listed (log entries 2
and 3). -/
def State.reset : State := State.powerOn Config.params []

end Sys2Proof.Machine
end

