-- ==== Sys2Proof/Machine/Ops.lean ====
section
/-! DEFINITION. The operations every command shares: the buffer memory (20_memory.md R50 to R56), the result
registers, how a command ends (00_scope.md R10, 60_exceptions.md R143), and how it starts and completes
(20_memory.md R59, R60). -/

namespace Sys2Proof.Machine

/-! ### The buffer memory -/

/-- What a byte that is not listed reads as. DESIGN CHOICE 0x00 (log entry 3). -/
def unlistedByte : Byte := 0x00

/-- The byte at an address. -/
def Memory.read : Memory → Nat → Byte
  | [], _ => unlistedByte
  | (b, w) :: m, a => if a = b then w else Memory.read m a

/-- Put a byte in front of the listed bytes, unless an unlisted byte reads the same. -/
def Memory.put (a : Nat) (v : Byte) (m : Memory) : Memory :=
  if v = unlistedByte then m else (a, v) :: m

/-- Write the byte at an address, keeping the canonical form. -/
def Memory.write : Memory → Nat → Byte → Memory
  | [], a, v => Memory.put a v []
  | (b, w) :: m, a, v =>
    if a < b then Memory.put a v ((b, w) :: m)
    else if a = b then Memory.put a v m
    else (b, w) :: Memory.write m a v

/-- The canonical form above `lo`: addresses rise strictly from `lo`, and no listed byte is an unlisted byte's value. -/
def Memory.wfFrom (lo : Nat) : Memory → Bool
  | [] => true
  | (a, v) :: m => decide (lo ≤ a) && (v != unlistedByte) && Memory.wfFrom (a + 1) m

/-- The canonical form of a memory. -/
def Memory.wf (m : Memory) : Bool := Memory.wfFrom 0 m

/-- Every listed byte has an address below `n`. -/
def Memory.below (n : Nat) (m : Memory) : Bool := m.all fun c => decide (c.1 < n)

/-- MemRead(a, 1) (00_scope.md R10). -/
def memRead (s : State) (a : Nat) : Byte := Memory.read s.mem a

/-- MemWrite(a, 1, v) (00_scope.md R10). -/
def memWrite (s : State) (a : Nat) (v : Byte) : State := { s with mem := Memory.write s.mem a v }

/-- InRange(b, n) (20_memory.md R55). -/
def inRange (s : State) (b n : Nat) : Bool := n == 0 || decide (b + n ≤ s.params.memBytes)

/-- Disjoint(b1, n1, b2, n2) (20_memory.md R56). -/
def disjoint (b1 n1 b2 n2 : Nat) : Bool :=
  n1 == 0 || n2 == 0 || decide (b1 + n1 ≤ b2) || decide (b2 + n2 ≤ b1)

/-- The bytes of the region `[b, b + n)`, at ascending addresses (20_memory.md R54). -/
def readBytes (s : State) (b n : Nat) : List Byte := (List.range n).map fun j => memRead s (b + j)

/-- Write bytes at ascending addresses from `b` (20_memory.md R54). -/
def writeBytes (s : State) (b : Nat) : List Byte → State
  | [] => s
  | v :: vs => writeBytes (memWrite s b v) (b + 1) vs

/-- The address of the red byte of the pixel with scan index `k` (20_memory.md R53). -/
def red (g k : Nat) : Nat := g + 4 * k

/-- lsb(k) for `k` from `k0` to `k0 + n - 1`: the red LSBs in scan order (41_steganographer.md R111, R120). -/
def readLsbs (s : State) (g k0 n : Nat) : Bits :=
  (List.range n).map fun i => (memRead s (red g (k0 + i))).getLsbD 0

/-- Write stream bits to the red LSBs of the pixels with scan index `k`, `k + 1`, … (41_steganographer.md R110 step 4,
R111). -/
def writeLsbs (s : State) (g k : Nat) : Bits → State
  | [] => s
  | b :: bs => writeLsbs (memWrite s (red g k) (setLsb (memRead s (red g k)) b)) g (k + 1) bs

/-! ### The result registers (10_state.md R31 to R33) -/

/-- RLEN <- n. -/
def setRlen (s : State) (n : Nat) : State :=
  { s with results := { s.results with rlen := BitVec.ofNat 32 n } }

/-- HDR <- n. -/
def setHdr (s : State) (n : Nat) : State :=
  { s with results := { s.results with hdr := BitVec.ofNat 16 n } }

/-- BITCNT <- n. -/
def setBitcnt (s : State) (n : Nat) : State :=
  { s with results := { s.results with bitcnt := BitVec.ofNat 32 n } }

/-! ### How a command ends -/

/-- `raise E` (00_scope.md R10, 60_exceptions.md R143): the result code is recorded, and nothing else changes. -/
def raise (e : ErrCode) (s : State) : State := { s with status := { s.status with errcode := e } }

/-- `complete` (00_scope.md R10): ERRCODE is left as the command's start left it, 0 (20_memory.md R59). -/
def complete (s : State) : State := s

/-! ### How a command starts and how the engine completes it -/

/-- Command start (20_memory.md R59). -/
def startCommand (v : Word) (s : State) : State :=
  { s with
    cmd := v
    status := { s.status with busy := true, done := false, errcode := .none }
    results := .zero }

/-- What the completion step does after Execute(CMD) (20_memory.md R60). -/
def finish (s : State) : State := { s with status := { s.status with busy := false, done := true } }

end Sys2Proof.Machine
end

