-- ==== Sys2Proof/Machine/Operands.lean ====
section
/-! DEFINITION. Operand assembly (30_encoding.md R73): every operand is an operand register widened to a natural. And
the pixel layout (20_memory.md R53). -/

namespace Sys2Proof.Machine

/-- SRC, a buffer address (10_state.md R25). -/
def srcAddr (s : State) : Nat := s.operands.src.toNat

/-- SLEN, the length of the source sequence (10_state.md R26). -/
def srcLen (s : State) : Nat := s.operands.slen.toNat

/-- DST, a buffer address (10_state.md R27). -/
def dstAddr (s : State) : Nat := s.operands.dst.toNat

/-- GRID, the address of pixel (0, 0) (10_state.md R28). -/
def gridAddr (s : State) : Nat := s.operands.grid.toNat

/-- W = GW.W (10_state.md R29). -/
def gridWidth (s : State) : Nat := s.operands.gw.toNat

/-- H = GH.H (10_state.md R30). -/
def gridHeight (s : State) : Nat := s.operands.gh.toNat

/-- P = W·H, the capacity in pixels (41_steganographer.md). -/
def pixelCount (s : State) : Nat := gridWidth s * gridHeight s

/-- The scan index of pixel (x, y) in a grid of width `w` (20_memory.md R53). -/
def scanIndex (w x y : Nat) : Nat := y * w + x

/-- The address of the green byte of the pixel with scan index `k` (20_memory.md R53). -/
def green (g k : Nat) : Nat := g + 4 * k + 1

/-- The address of the blue byte (20_memory.md R53). -/
def blue (g k : Nat) : Nat := g + 4 * k + 2

/-- The address of the alpha byte (20_memory.md R53). -/
def alpha (g k : Nat) : Nat := g + 4 * k + 3

/-- The text, or the symbol string, at [SRC, SRC + SLEN) (30_encoding.md R73). -/
def sourceBytes (s : State) : List Byte := readBytes s (srcAddr s) (srcLen s)

/-- How many stream bits EMBED writes when it succeeds: N = min(L, P), L = 16 + 8n (41_steganographer.md R110). -/
def embedCount (s : State) : Nat := min (16 + 8 * srcLen s) (pixelCount s)

/-- The value of the 16 header bits of the grid (41_steganographer.md R120 step 2). -/
def headerValue (s : State) : Nat := val (readLsbs s (gridAddr s) 0 16)

end Sys2Proof.Machine
end

