-- ==== Sys2Proof/Machine/BitCodec.lean ====
section
/-! DEFINITION. The BitCodec family: BENC (40_bitcodec.md R91) and BDEC (R94). A meaning is Execute of 30_encoding.md
R72; the engine step puts BUSY and DONE around it (20_memory.md R60; log entry 8). -/

namespace Sys2Proof.Machine

/-- BENC (40_bitcodec.md R91). -/
def execBenc (s : State) : Host.Outcome State Fault Refusal :=
  let n := srcLen s
  if !(inRange s (srcAddr s) n && inRange s (dstAddr s) (8 * n)) then .next (raise .addrErr s)
  else if !disjoint (srcAddr s) n (dstAddr s) (8 * n) then .next (raise .overlapErr s)
  else
    let symbols := (bitEncode (sourceBytes s)).map symbol
    .next (complete (setRlen (writeBytes s (dstAddr s) symbols) (8 * n)))

/-- BDEC (40_bitcodec.md R94). -/
def execBdec (s : State) : Host.Outcome State Fault Refusal :=
  let n := srcLen s
  let m := ceil8 n
  if !(inRange s (srcAddr s) n && inRange s (dstAddr s) m) then .next (raise .addrErr s)
  else if !disjoint (srcAddr s) n (dstAddr s) m then .next (raise .overlapErr s)
  else
    match parseSymbols (sourceBytes s) with
    | none => .next (raise .decodeErr s)
    | some digits => .next (complete (setRlen (writeBytes s (dstAddr s) (bitDecode digits)) m))

end Sys2Proof.Machine
end

