-- ==== Sys2Proof/Machine/Steganographer.lean ====
section
/-! DEFINITION. The ImageSteganographer family: EMBED (41_steganographer.md R110) and EXTRACT (R120). A meaning is
Execute of 30_encoding.md R72; the engine step puts BUSY and DONE around it (20_memory.md R60; log entry 8). -/

namespace Sys2Proof.Machine

/-- EMBED (41_steganographer.md R110). -/
def execEmbed (s : State) : Host.Outcome State Fault Refusal :=
  let n := srcLen s
  let p := pixelCount s
  if !(inRange s (srcAddr s) n && inRange s (gridAddr s) (4 * p)) then .next (raise .addrErr s)
  else if !disjoint (srcAddr s) n (gridAddr s) (4 * p) then .next (raise .overlapErr s)
  else if Config.maxEmbedChars < n then .next (raise .lengthErr s)
  else
    let s1 := setHdr s (8 * n)
    if p < 16 + 8 * n ∧ s.ctrl.truncEn = false then .next (raise .capacityErr s1)
    else
      let s2 := writeLsbs s1 (gridAddr s) 0 ((embedStream (sourceBytes s)).take p)
      .next (complete (setBitcnt s2 (embedCount s)))

/-- EXTRACT (41_steganographer.md R120, R121). -/
def execExtract (s : State) : Host.Outcome State Fault Refusal :=
  let g := gridAddr s
  let p := pixelCount s
  if !inRange s g (4 * p) then .next (raise .addrErr s)
  else if p < 16 then .next (raise .headerErr (setBitcnt s p))
  else
    let length := headerValue s
    let s1 := setHdr s length
    if p - 16 < length then .next (raise .payloadTrunc (setBitcnt s1 p))
    else
      let s2 := setBitcnt s1 (16 + length)
      let m := ceil8 length
      if !inRange s (dstAddr s) m then .next (raise .addrErr s2)
      else if !disjoint g (4 * p) (dstAddr s) m then .next (raise .overlapErr s2)
      else
        let text := bitDecode (readLsbs s g 16 length)
        .next (complete (setRlen (writeBytes s2 (dstAddr s) text) m))

end Sys2Proof.Machine
end

