-- ==== Sys2Proof/Machine/Engine.lean ====
section
/-! DEFINITION. The engine agent: Execute (30_encoding.md R72) and the completion step (20_memory.md R60). -/

namespace Sys2Proof.Machine

/-- Execute(CMD) (30_encoding.md R72): the command the word selects, or ILLEGAL_CMD. -/
def execute (s : State) : Host.Outcome State Fault Refusal :=
  match decode s.cmd with
  | .ok i => exec i s
  | .error _ => .next (raise .illegalCmd s)

/-- A function of the next state, where there is one. -/
def mapNext (f : State → State) : Host.Outcome State Fault Refusal → Host.Outcome State Fault Refusal
  | .next s => .next (f s)
  | .fault r => .fault r
  | .refused r => .refused r

/-- The completion step (20_memory.md R60). -/
def engineStep (s : State) : Host.Outcome State Fault Refusal := mapNext finish (execute s)

/-- The engine's turn: the completion step, which is enabled exactly when BUSY = 1 (20_memory.md R60). With BUSY = 0 the
block holds all state (60_exceptions.md R157; log entry 10). -/
def engineTurn (s : State) : Host.Outcome State Fault Refusal :=
  if s.status.busy then engineStep s else .next s

end Sys2Proof.Machine
end

