-- ==== Sys2Proof/Machine/Abandon.lean ====
section
/-! DEFINITION. The reset input `rst` (70_reset_and_hazards.md R170 to R172). -/

namespace Sys2Proof.Machine

/-- The write set of a command, as addresses in the order the command writes them (70_reset_and_hazards.md R172). -/
def writeSet (i : Instr) (s : State) : List Nat :=
  match i with
  | .benc => (List.range (8 * srcLen s)).map fun k => dstAddr s + k
  | .bdec => (List.range (ceil8 (srcLen s))).map fun k => dstAddr s + k
  | .embed => (List.range (embedCount s)).map fun k => red (gridAddr s) k
  | .extract => (List.range (ceil8 (headerValue s))).map fun k => dstAddr s + k

/-- The bytes a reset leaves unspecified (70_reset_and_hazards.md R172): the write set of the command in flight, if it
would have completed with ERRCODE = NONE; none otherwise, and none while idle (R171). -/
def abandonedSet (s : State) : List Nat :=
  if s.status.busy then
    match decode s.cmd with
    | .ok i =>
      match exec i s with
      | .next s' => if s'.status.errcode = .none then writeSet i s else []
      | .fault _ => []
      | .refused _ => []
    | .error _ => []
  else []

/-- Draw a free byte for each address (70_reset_and_hazards.md R172: freely, once per byte; log entry 4). -/
def drawBytes (s : State) : List Nat → State
  | [] => s
  | a :: as =>
    let s1 := memWrite s a (Config.freeByte s.env.draws)
    drawBytes { s1 with env := { s1.env with draws := s1.env.draws + 1 } } as

/-- Every register at its reset value, and the memory left alone (70_reset_and_hazards.md R170). -/
def clearRegisters (s : State) : State :=
  { s with ctrl := .zero, cmd := 0, status := .zero, operands := .zero, results := .zero }

/-- Assert `rst`, idle or busy (70_reset_and_hazards.md R170 to R172). -/
def assertReset (s : State) : State := clearRegisters (drawBytes s (abandonedSet s))

end Sys2Proof.Machine
end

