-- ==== Sys2Proof/Machine/Flags.lean ====
section
/-! DEFINITION. The flags, which are the fields of STATUS (10_state.md R24, R37), the register words they are read in,
and the interrupt output (60_exceptions.md R150). -/

namespace Sys2Proof.Machine

/-- The code number of a result (60_exceptions.md R140). -/
def ErrCode.code : ErrCode → BitVec 4
  | .none => 0
  | .decodeErr => 1
  | .headerErr => 2
  | .capacityErr => 3
  | .payloadTrunc => 4
  | .lengthErr => 5
  | .addrErr => 6
  | .overlapErr => 7
  | .illegalCmd => 8

/-- STATUS as a read returns it (10_state.md R24). -/
def statusWord (t : Status) : Word :=
  0#20 ++ t.errcode.code ++ 0#5 ++ BitVec.ofBool t.haz ++ BitVec.ofBool t.done ++ BitVec.ofBool t.busy

/-- CTRL as a read returns it (10_state.md R21). -/
def ctrlWord (c : Ctrl) : Word := 0#30 ++ BitVec.ofBool c.truncEn ++ BitVec.ofBool c.ie

/-- What a write stores in CTRL (10_state.md R21). -/
def ctrlOfWord (v : Word) : Ctrl := { ie := v.getLsbD 0, truncEn := v.getLsbD 1 }

/-- A write to STATUS (10_state.md R24): a 1 in bit 1 clears DONE, a 1 in bit 2 clears HAZ. -/
def ackStatus (v : Word) (s : State) : State :=
  { s with status := { s.status with
      done := s.status.done && !v.getLsbD 1
      haz := s.status.haz && !v.getLsbD 2 } }

/-- STATUS.HAZ <- 1 (20_memory.md R61, R62). -/
def setHaz (s : State) : State := { s with status := { s.status with haz := true } }

/-- The interrupt output (60_exceptions.md R150). -/
def irq (s : State) : Bool := s.status.done && s.ctrl.ie

end Sys2Proof.Machine
end

