-- ==== Sys2Proof/Machine/HostPort.lean ====
section
/-! DEFINITION. The host agent's transactions: the register port (20_memory.md R57, R61), the buffer port (R58, R62),
and reset. -/

namespace Sys2Proof.Machine

/-- The slot an offset of the register window lies in (10_state.md R20). -/
def regOfOffset (offset : Fin 64) : Reg :=
  match offset.val / 4 with
  | 0 => .ctrl
  | 1 => .cmd
  | 2 => .status
  | 3 => .src
  | 4 => .slen
  | 5 => .dst
  | 6 => .grid
  | 7 => .gw
  | 8 => .gh
  | 9 => .rlen
  | 10 => .hdr
  | 11 => .bitcnt
  | _ => .reserved

/-- What a read of a register returns: reserved fields and offsets read 0 (10_state.md R20 to R34). -/
def readReg (s : State) : Reg → Word
  | .ctrl => ctrlWord s.ctrl
  | .cmd => s.cmd
  | .status => statusWord s.status
  | .src => s.operands.src
  | .slen => s.operands.slen
  | .dst => s.operands.dst
  | .grid => s.operands.grid
  | .gw => s.operands.gw.setWidth 32
  | .gh => s.operands.gh.setWidth 32
  | .rlen => s.results.rlen
  | .hdr => s.results.hdr.setWidth 32
  | .bitcnt => s.results.bitcnt
  | .reserved => 0

/-- A write of an operand register (10_state.md R25 to R30): GW and GH store bits 15:0. -/
def setOperand (r : Reg) (v : Word) (o : OperandRegs) : OperandRegs :=
  match r with
  | .src => { o with src := v }
  | .slen => { o with slen := v }
  | .dst => { o with dst := v }
  | .grid => { o with grid := v }
  | .gw => { o with gw := v.setWidth 16 }
  | .gh => { o with gh := v.setWidth 16 }
  | _ => o

/-- A register write while BUSY = 0 (20_memory.md R57): what the register's rule gives. A write to a read-only register
or a reserved offset is ignored (10_state.md R20, R34). -/
def writeRegIdle (r : Reg) (v : Word) (s : State) : State :=
  match r with
  | .ctrl => { s with ctrl := ctrlOfWord v }
  | .cmd => startCommand v s
  | .status => ackStatus v s
  | .src | .slen | .dst | .grid | .gw | .gh => { s with operands := setOperand r v s.operands }
  | .rlen | .hdr | .bitcnt | .reserved => s

/-- A register write while BUSY = 1 (20_memory.md R61). -/
def writeRegBusy (r : Reg) (v : Word) (s : State) : State :=
  match r with
  | .status => ackStatus v s
  | _ => setHaz s

/-- A register write (20_memory.md R57, R61). -/
def writeReg (r : Reg) (v : Word) (s : State) : State :=
  if s.status.busy then writeRegBusy r v s else writeRegIdle r v s

/-- The accesses the register port admits: 32 bits, at a multiple of 4 (20_memory.md R57). -/
def regAccessOk (width : Nat) (offset : Fin 64) : Bool := width == 32 && offset.val % 4 == 0

/-- The accesses the buffer port admits: 8 bits, below MEM_BYTES (20_memory.md R58). -/
def bufAccessOk (s : State) (width offset : Nat) : Bool :=
  width == 8 && decide (offset < s.params.memBytes)

/-- One host transaction: the state after it and the response. An access a port does not admit gets a bus error and
changes nothing, busy or idle (60_exceptions.md R146; log entry 12). -/
def transact (t : Transaction) (s : State) : State × Response :=
  match t with
  | .regRead width offset =>
    if regAccessOk width offset then (s, .regData (readReg s (regOfOffset offset))) else (s, .busError)
  | .regWrite width offset v =>
    if regAccessOk width offset then (writeReg (regOfOffset offset) v s, .accepted) else (s, .busError)
  | .bufRead width a =>
    if bufAccessOk s width a then
      if s.status.busy then (setHaz s, .bufData 0x00) else (s, .bufData (memRead s a))
    else (s, .busError)
  | .bufWrite width a v =>
    if bufAccessOk s width a then
      if s.status.busy then (setHaz s, .accepted) else (memWrite s a v, .accepted)
    else (s, .busError)
  | .reset => (assertReset s, .accepted)

/-- Note a transaction and its response (00_scope.md R14; log entry 6). -/
def record (t : Transaction) (r : Response) (s : State) : State :=
  { s with env := { s.env with history := (t, r) :: s.env.history } }

/-- The host's turn. -/
def hostTurn (t : Transaction) (s : State) : State := record t (transact t s).2 (transact t s).1

/-- The host bus address an access of the block's windows is made at (20_memory.md R50); `rst` is no bus access. -/
def hostAddress (p : Config.Params) : Transaction → Option Nat
  | .regRead _ offset => some (p.regBase + offset.val)
  | .regWrite _ offset _ => some (p.regBase + offset.val)
  | .bufRead _ a => some (p.bufBase + a)
  | .bufWrite _ a _ => some (p.bufBase + a)
  | .reset => none

end Sys2Proof.Machine
end

