-- ==== Sys2Proof/Machine/Step.lean ====
section
/-! DEFINITION. One step of the block: one turn of the interleaving of host and engine (20_memory.md R63, 60_exceptions.md
R151). -/

namespace Sys2Proof.Machine

/-- The state with its script of turns replaced. -/
def State.withScript (s : State) (ts : List Turn) : State := { s with env := { s.env with script := ts } }

/-- One step: the next turn of the script. Once the script is used up the turn is the engine's, which is the fairness of
00_scope.md R14 (log entry 1). -/
def step (s : State) : Host.Outcome State Fault Refusal :=
  match s.env.script with
  | [] => engineTurn s
  | .engine :: ts => engineTurn (s.withScript ts)
  | .host t :: ts => .next (hostTurn t (s.withScript ts))

/-- `s` with a command started (20_memory.md R59) and the next turn the engine's, so that the next step runs it (log
entry 9). -/
def State.withFetchWord (s : State) (nbits w : Nat) : State :=
  (startCommand (tableWord nbits w) s).withScript (.engine :: s.env.script)

end Sys2Proof.Machine
end

