-- ==== Sys2Proof/Machine/HostScript.lean ====
section
/-! DEFINITION. The host-script notation (30_encoding.md R76) and the pseudo-instructions (R77), as turns. -/

namespace Sys2Proof.Machine

/-- The offset of a register (10_state.md R20); the first reserved offset for `reserved`. -/
def regOffset : Reg → Fin 64
  | .ctrl => 0x00
  | .cmd => 0x04
  | .status => 0x08
  | .src => 0x0C
  | .slen => 0x10
  | .dst => 0x14
  | .grid => 0x18
  | .gw => 0x1C
  | .gh => 0x20
  | .rlen => 0x24
  | .hdr => 0x28
  | .bitcnt => 0x2C
  | .reserved => 0x30

/-- `WR32 <reg>, <value>`. -/
def wr32 (r : Reg) (v : Word) : Turn := .host (.regWrite 32 (regOffset r) v)

/-- `RD32 <reg>`. -/
def rd32 (r : Reg) : Turn := .host (.regRead 32 (regOffset r))

/-- `WR8 <addr>, <byte>`. -/
def wr8 (a : Nat) (v : Byte) : Turn := .host (.bufWrite 8 a v)

/-- `RD8 <addr>`. -/
def rd8 (a : Nat) : Turn := .host (.bufRead 8 a)

/-- `WRBUF <addr>, <b0> <b1> …`: a run of WR8. -/
def wrbuf (a : Nat) : List Byte → List Turn
  | [] => []
  | v :: vs => wr8 a v :: wrbuf (a + 1) vs

/-- `RESET`. -/
def rst : Turn := .host .reset

/-- `BENC`, `BDEC`, `EMBED`, `EXTRACT`: a write of the command's word to CMD (30_encoding.md R77). -/
def wrCmd (i : Instr) : Turn := wr32 .cmd (encode i)

/-- `WAIT` in the interleaving in which `k` polls of STATUS come before the engine's step; the poll after it reads
BUSY = 0 (30_encoding.md R77, 00_scope.md R14). -/
def wait (k : Nat) : List Turn := List.replicate k (rd32 .status) ++ [.engine, rd32 .status]

/-- `RUN <cmd>`: the command, then `WAIT`. -/
def runCmd (i : Instr) (k : Nat) : List Turn := wrCmd i :: wait k

/-- `ACK`: clear DONE and HAZ. -/
def ack : Turn := wr32 .status 0x00000006

end Sys2Proof.Machine
end

