-- ==== Sys2Proof/Safety.lean ====
section
/-! DEFINITION. What holds of every state a run can reach: the parameters are in range, the buffer memory is canonical
and lies inside the buffer, a command in flight still has the result registers its start cleared, and the result
registers agree with the result code. -/

namespace Sys2Proof.Machine

/-- The buffer memory is in canonical form and lists no byte at or above MEM_BYTES (10_state.md R38, 20_memory.md
R51). -/
def State.memOk (s : State) : Bool := Memory.wf s.mem && Memory.below s.params.memBytes s.mem

/-- While BUSY, DONE and ERRCODE and the result registers hold the 0 the command's start gave them (20_memory.md R59,
70_reset_and_hazards.md R175). -/
def State.startedClean (s : State) : Bool :=
  !s.status.busy ||
    (!s.status.done && decide (s.status.errcode = .none) && decide (s.results = .zero))

/-- What the last column of 60_exceptions.md R140 leaves in the result registers beside each error code. -/
def ResultRegs.agree (r : ResultRegs) : ErrCode → Bool
  | .none => true
  | .decodeErr => decide (r = .zero)
  | .lengthErr => decide (r = .zero)
  | .illegalCmd => decide (r = .zero)
  | .headerErr => decide (r.rlen = 0 ∧ r.hdr = 0 ∧ r.bitcnt.toNat < 16)
  | .capacityErr => decide (r.rlen = 0 ∧ r.bitcnt = 0 ∧ r.hdr.toNat % 8 = 0)
  | .payloadTrunc => decide (r.rlen = 0 ∧ 16 ≤ r.bitcnt.toNat ∧ r.bitcnt.toNat < 16 + r.hdr.toNat)
  | .addrErr => decide (r.rlen = 0 ∧ (r = .zero ∨ r.bitcnt.toNat = 16 + r.hdr.toNat))
  | .overlapErr => decide (r.rlen = 0 ∧ (r = .zero ∨ r.bitcnt.toNat = 16 + r.hdr.toNat))

/-- The invariant of the block. -/
def State.inv (s : State) : Bool :=
  s.params.wf && s.memOk && s.startedClean && s.results.agree s.status.errcode

end Sys2Proof.Machine
end

