-- ==== Sys2Proof/Certificates/Slice0/Obligations.lean ====
section
/-! DEFINITION. The statements about the block, from the numbered rules of spec/. -/

namespace Sys2Proof.Claims

open Sys2Proof.Machine

/-! ### The words the statements are written in -/

/-- The region [b, b + n) is in the buffer, or empty (20_memory.md R55). -/
abbrev regionOk (s : State) (b n : Nat) : Prop := n = 0 ∨ b + n ≤ s.params.memBytes

/-- Two regions do not overlap (20_memory.md R56). -/
abbrev apart (b1 n1 b2 n2 : Nat) : Prop := n1 = 0 ∨ n2 = 0 ∨ b1 + n1 ≤ b2 ∨ b2 + n2 ≤ b1

/-- The text, or the symbol string, is in the buffer. -/
abbrev sourceOk (s : State) : Prop := regionOk s (srcAddr s) (srcLen s)

/-- The pixel grid is in the buffer. -/
abbrev gridOk (s : State) : Prop := regionOk s (gridAddr s) (4 * pixelCount s)

/-- The source and an output of `n` bytes at DST do not overlap. -/
abbrev sourceApart (s : State) (n : Nat) : Prop := apart (srcAddr s) (srcLen s) (dstAddr s) n

/-- The text and the grid do not overlap. -/
abbrev textApart (s : State) : Prop := apart (srcAddr s) (srcLen s) (gridAddr s) (4 * pixelCount s)

/-- The grid and an output of `n` bytes at DST do not overlap. -/
abbrev gridApart (s : State) (n : Nat) : Prop := apart (gridAddr s) (4 * pixelCount s) (dstAddr s) n

/-- Nothing but STATUS, the result registers and memory may differ. -/
def frame (s t : State) : Prop :=
  t.params = s.params ∧ t.ctrl = s.ctrl ∧ t.cmd = s.cmd ∧ t.operands = s.operands ∧ t.env = s.env

/-- Every byte outside [b, b + n) reads as before. -/
def onlyRegion (s t : State) (b n : Nat) : Prop := ∀ a, (a < b ∨ b + n ≤ a) → memRead t a = memRead s a

/-- `s` with a result code recorded and nothing else changed. -/
def withCode (s : State) (e : ErrCode) : State := { s with status := { s.status with errcode := e } }

/-- The red LSB of the pixel with scan index `k` (41_steganographer.md R120). -/
def lsb (s : State) (k : Nat) : Bool := (memRead s (gridAddr s + 4 * k)).getLsbD 0

/-- Symbol `k` of the symbol string at SRC. -/
def sourceSymbol (s : State) (k : Nat) : Byte := memRead s (srcAddr s + k)

/-- Digit `k` of BitEncode of the text at SRC (40_bitcodec.md R90). -/
def textBit (s : State) (k : Nat) : Bool := (memRead s (srcAddr s + k / 8)).getLsbD (7 - k % 8)

/-- Stream bit `k`: 16 header digits of the payload length 8n, most significant first, then the text's digits
(41_steganographer.md R110). -/
def streamBit (s : State) (k : Nat) : Bool :=
  if k < 16 then (8 * srcLen s).testBit (15 - k) else textBit s (k - 16)

/-- The value of the grid's 16 header bits: below 2^16, and digit `k`, most significant first, is lsb(k)
(41_steganographer.md R120 step 2). -/
def isHeader (s : State) (length : Nat) : Prop :=
  length < 2 ^ 16 ∧ ∀ k, k < 16 → length.testBit (15 - k) = lsb s k

/-- The pad length of an n-digit sequence (40_bitcodec.md R93). -/
def pad (n : Nat) : Nat := (8 - n % 8) % 8

/-- The digits `d 0`, …, `d (n - 1)` stand, left-padded with zero digits, in the ceil8(n) characters from `b`
(40_bitcodec.md R93). -/
def decodedAt (t : State) (b n : Nat) (d : Nat → Bool) : Prop :=
  ∀ j, j < (n + 7) / 8 → ∀ i, i < 8 →
    (memRead t (b + j)).getLsbD (7 - i) = if 8 * j + i < pad n then false else d (8 * j + i - pad n)

/-- Red byte `k` after stream bit `b` is embedded in it: bit 0 is `b`, and bits 7:1 are as before
(41_steganographer.md R110, R113). -/
def embeddedAt (s t : State) (k : Nat) (b : Bool) : Prop :=
  (memRead t (gridAddr s + 4 * k)).getLsbD 0 = b ∧
    ∀ i, 1 ≤ i → (memRead t (gridAddr s + 4 * k)).getLsbD i = (memRead s (gridAddr s + 4 * k)).getLsbD i

/-- The next turn is the engine's, and `u` is the state it is taken in (20_memory.md R63; log entry 1). -/
def engineNext (s u : State) : Prop :=
  (s.env.script = [] ∧ u = s) ∨ ∃ ts, s.env.script = .engine :: ts ∧ u = s.withScript ts

/-- The next turn is the host's transaction `tr`, and `ts` are the turns after it. -/
def hostNext (s : State) (tr : Transaction) (ts : List Turn) : Prop := s.env.script = .host tr :: ts

/-- The environment after transaction `tr` got response `r`: the turn is used up and the response noted (the model's own
fields, log entries 1 and 6). -/
def answered (s : State) (ts : List Turn) (tr : Transaction) (r : Response) : Env :=
  { s.env with script := ts, history := (tr, r) :: s.env.history }

/-- STATUS after a write of `v` to it (10_state.md R24). -/
def ackedStatus (t : Status) (v : Word) : Status :=
  { t with done := t.done && !v.getLsbD 1, haz := t.haz && !v.getLsbD 2 }

/-- The words that are no command (30_encoding.md R74). -/
def illegalWord (w : Word) : Prop := w.toNat = 0 ∨ 4 < w.toNat

/-- The first check of a command that fails, in the order of 60_exceptions.md R142, and NONE if none does. -/
def firstFailing (s : State) : Instr → ErrCode
  | .benc =>
    if ¬(sourceOk s ∧ regionOk s (dstAddr s) (8 * srcLen s)) then .addrErr
    else if ¬sourceApart s (8 * srcLen s) then .overlapErr
    else .none
  | .bdec =>
    if ¬(sourceOk s ∧ regionOk s (dstAddr s) ((srcLen s + 7) / 8)) then .addrErr
    else if ¬sourceApart s ((srcLen s + 7) / 8) then .overlapErr
    else if (List.range (srcLen s)).any fun k => sourceSymbol s k != 0x30 && sourceSymbol s k != 0x31 then .decodeErr
    else .none
  | .embed =>
    if ¬(sourceOk s ∧ gridOk s) then .addrErr
    else if ¬textApart s then .overlapErr
    else if 8191 < srcLen s then .lengthErr
    else if s.ctrl.truncEn = false ∧ pixelCount s < 16 + 8 * srcLen s then .capacityErr
    else .none
  | .extract =>
    if ¬gridOk s then .addrErr
    else if pixelCount s < 16 then .headerErr
    else if pixelCount s - 16 < headerValue s then .payloadTrunc
    else if ¬regionOk s (dstAddr s) ((headerValue s + 7) / 8) then .addrErr
    else if ¬gridApart s ((headerValue s + 7) / 8) then .overlapErr
    else .none

/-- The result registers beside each error, the last column of 60_exceptions.md R140. -/
def recorded (s : State) : ErrCode → ResultRegs
  | .headerErr => { ResultRegs.zero with bitcnt := BitVec.ofNat 32 (pixelCount s) }
  | .capacityErr => { ResultRegs.zero with hdr := BitVec.ofNat 16 (8 * srcLen s) }
  | .payloadTrunc =>
    { ResultRegs.zero with hdr := BitVec.ofNat 16 (headerValue s), bitcnt := BitVec.ofNat 32 (pixelCount s) }
  | .addrErr =>
    if s.cmd = 0x00000004 ∧ gridOk s then
      { ResultRegs.zero with hdr := BitVec.ofNat 16 (headerValue s), bitcnt := BitVec.ofNat 32 (16 + headerValue s) }
    else .zero
  | .overlapErr =>
    if s.cmd = 0x00000004 then
      { ResultRegs.zero with hdr := BitVec.ofNat 16 (headerValue s), bitcnt := BitVec.ofNat 32 (16 + headerValue s) }
    else .zero
  | _ => .zero

/-- How many bytes a command's write set has (70_reset_and_hazards.md R172). -/
def writeCount (s : State) : Instr → Nat
  | .benc => 8 * srcLen s
  | .bdec => (srcLen s + 7) / 8
  | .embed => min (16 + 8 * srcLen s) (pixelCount s)
  | .extract => (headerValue s + 7) / 8

/-- The address of byte `k` of a command's write set (70_reset_and_hazards.md R172). -/
def writeAddr (s : State) (i : Instr) (k : Nat) : Nat :=
  match i with
  | .embed => gridAddr s + 4 * k
  | _ => dstAddr s + k

/-- The registers a command reads hold the same in both states (30_encoding.md R73). -/
def sameOperands (i : Instr) (s s' : State) : Prop :=
  match i with
  | .benc => srcAddr s' = srcAddr s ∧ srcLen s' = srcLen s ∧ dstAddr s' = dstAddr s
  | .bdec => srcAddr s' = srcAddr s ∧ srcLen s' = srcLen s ∧ dstAddr s' = dstAddr s
  | .embed =>
    srcAddr s' = srcAddr s ∧ srcLen s' = srcLen s ∧ gridAddr s' = gridAddr s ∧ gridWidth s' = gridWidth s ∧
      gridHeight s' = gridHeight s ∧ s'.ctrl.truncEn = s.ctrl.truncEn
  | .extract =>
    gridAddr s' = gridAddr s ∧ gridWidth s' = gridWidth s ∧ gridHeight s' = gridHeight s ∧ dstAddr s' = dstAddr s

/-- The transactions that get a bus error (60_exceptions.md R146). -/
def badAccess (s : State) : Transaction → Prop
  | .regRead w o => w ≠ 32 ∨ o.val % 4 ≠ 0
  | .regWrite w o _ => w ≠ 32 ∨ o.val % 4 ≠ 0
  | .bufRead w a => w ≠ 8 ∨ s.params.memBytes ≤ a
  | .bufWrite w a _ => w ≠ 8 ∨ s.params.memBytes ≤ a
  | .reset => False

end Sys2Proof.Claims

open Sys2Proof Sys2Proof.Machine Sys2Proof.Claims

/-! ### The command words -/

/-- The opcode map (30_encoding.md R71). -/
def Obligations.OpcodeMap : Prop :=
  ∀ opc : BitVec 4, decode ((0 : BitVec 28) ++ opc) =
    if opc = 0x1 then .ok .benc
    else if opc = 0x2 then .ok .bdec
    else if opc = 0x3 then .ok .embed
    else if opc = 0x4 then .ok .extract
    else .error (.reservedOpcode opc)

/-- Decoding and encoding agree both ways: a word selects a command exactly when it is that command's word, so every
other of the 2^32 words is illegal (30_encoding.md R72, R74). -/
def Obligations.DecodeExactlyTheEncodedWords : Prop :=
  ∀ (w : Word) (i : Instr), decode w = .ok i ↔ w = encode i

/-- Words written out from the encoding (30_encoding.md R71, 95_test_vectors.md V31). -/
def Obligations.CommandWordsDecode : Prop :=
  decodeTableWord 32 0x00000001 = some .benc ∧ decodeTableWord 32 0x00000002 = some .bdec ∧
  decodeTableWord 32 0x00000003 = some .embed ∧ decodeTableWord 32 0x00000004 = some .extract ∧
  decodeTableWord 32 0x00000000 = none ∧ decodeTableWord 32 0x00000005 = none ∧
  decodeTableWord 32 0x0000000F = none ∧ decodeTableWord 32 0x00000011 = none ∧
  decodeTableWord 32 0x80000001 = none

/-- An illegal word written to CMD while idle starts a command, and its completion step records ILLEGAL_CMD, code 8,
and does nothing else (60_exceptions.md R141, 30_encoding.md R74). -/
def Obligations.IllegalWordCompletesWithIllegalCmd : Prop :=
  ErrCode.illegalCmd.code = 8 ∧
  ∀ (s : State) (ts : List Turn) (w : Word), s.status.busy = false → illegalWord w →
    hostNext s (.regWrite 32 0x04 w) (.engine :: ts) →
    ∃ u, step s = .next u ∧
      u = { s with
        cmd := w
        status := { busy := true, done := false, haz := s.status.haz, errcode := .none }
        results := { rlen := 0, hdr := 0, bitcnt := 0 }
        env := answered s (.engine :: ts) (.regWrite 32 0x04 w) .accepted } ∧
      step u = .next { u with
        status := { busy := false, done := true, haz := s.status.haz, errcode := .illegalCmd }
        env := { u.env with script := ts } }

/-- On the engine's turn, while BUSY, a step is exec of the decoded command, with BUSY cleared and DONE set after it; and
a command that withFetchWord starts is the one the next step runs (20_memory.md R60, 30_encoding.md R72). -/
def Obligations.StepRunsDecodedCommand : Prop :=
  (∀ (s u t : State) (i : Instr), engineNext s u → s.status.busy = true → decode s.cmd = .ok i →
    exec i u = .next t →
    step s = .next { t with status := { t.status with busy := false, done := true } }) ∧
  (∀ (s t : State) (i : Instr) (nbits w : Nat), decode (tableWord nbits w) = .ok i →
    exec i (startCommand (tableWord nbits w) s) = .next t →
    step (s.withFetchWord nbits w) = .next { t with status := { t.status with busy := false, done := true } })

/-- Command start (20_memory.md R59): a host write of v to CMD while idle. -/
def Obligations.CommandStart : Prop :=
  ∀ (s : State) (ts : List Turn) (v : Word), s.status.busy = false → hostNext s (.regWrite 32 0x04 v) ts →
    ∃ t, step s = .next t ∧ irq t = false ∧
      t = { s with
        cmd := v
        status := { busy := true, done := false, haz := s.status.haz, errcode := .none }
        results := { rlen := 0, hdr := 0, bitcnt := 0 }
        env := answered s ts (.regWrite 32 0x04 v) .accepted }

/-- Every command ends, in every state, and writes no operand register, no control bit, not CMD, no parameter and no flag
but ERRCODE (10_state.md R35, R37; BUSY and DONE are the engine step's). -/
def Obligations.CommandsEndAndKeepOperands : Prop :=
  ∀ (i : Instr) (s : State), ∃ t, exec i s = .next t ∧ frame s t ∧
    t.status.busy = s.status.busy ∧ t.status.done = s.status.done ∧ t.status.haz = s.status.haz

/-! ### BitCodec -/

/-- BitEncode (40_bitcodec.md R90). -/
def Obligations.BitEncodeDigits : Prop :=
  bitEncode [] = [] ∧
  ∀ t : List Byte, bitEncode t = (t.map fun c => bin 8 c.toNat).flatten ∧ (bitEncode t).length = 8 * t.length ∧
    ∀ j i (c : Byte), t[j]? = some c → i < 8 → (bitEncode t)[8 * j + i]? = some (c.getLsbD (7 - i))

/-- BitDecode (40_bitcodec.md R93): pad p, m groups, and the value of each group, also digit by digit. -/
def Obligations.BitDecodeGroups : Prop :=
  bitDecode [] = [] ∧
  ∀ s : Bits, (s.length + pad s.length) % 8 = 0 ∧ pad s.length ≤ 7 ∧
    (bitDecode s).length = (s.length + pad s.length) / 8 ∧ (bitDecode s).length = ceil8 s.length ∧
    ∀ j, j < (bitDecode s).length → ∃ c : Byte, (bitDecode s)[j]? = some c ∧
      c.toNat = val (((List.replicate (pad s.length) false ++ s).drop (8 * j)).take 8) ∧
      ∀ i, i < 8 → (List.replicate (pad s.length) false ++ s)[8 * j + i]? = some (c.getLsbD (7 - i))

/-- BitDecode undoes BitEncode (40_bitcodec.md R97, first sentence). -/
def Obligations.BitDecodeUndoesBitEncode : Prop := ∀ t : List Byte, bitDecode (bitEncode t) = t

/-- BENC (40_bitcodec.md R91). MEM_BYTES is in the range of 00_scope.md R6. -/
def Obligations.BencEncodesText : Prop :=
  decode 0x00000001 = .ok .benc ∧
  ∀ s : State, s.params.wf = true →
    (¬(sourceOk s ∧ regionOk s (dstAddr s) (8 * srcLen s)) → exec .benc s = .next (withCode s .addrErr)) ∧
    (sourceOk s → regionOk s (dstAddr s) (8 * srcLen s) → ¬sourceApart s (8 * srcLen s) →
      exec .benc s = .next (withCode s .overlapErr)) ∧
    (sourceOk s → regionOk s (dstAddr s) (8 * srcLen s) → sourceApart s (8 * srcLen s) →
      ∃ t, exec .benc s = .next t ∧ frame s t ∧ t.status = s.status ∧
        t.results.rlen.toNat = 8 * srcLen s ∧ t.results.hdr = s.results.hdr ∧
        t.results.bitcnt = s.results.bitcnt ∧
        (∀ k, k < 8 * srcLen s → memRead t (dstAddr s + k) = if textBit s k then 0x31 else 0x30) ∧
        onlyRegion s t (dstAddr s) (8 * srcLen s))

/-- BDEC (40_bitcodec.md R94, R95). The memory is in canonical form, an invariant (StepKeepsInvariant). -/
def Obligations.BdecDecodesSymbols : Prop :=
  decode 0x00000002 = .ok .bdec ∧
  ∀ s : State, s.params.wf = true → Memory.wf s.mem = true →
    (¬(sourceOk s ∧ regionOk s (dstAddr s) ((srcLen s + 7) / 8)) →
      exec .bdec s = .next (withCode s .addrErr)) ∧
    (sourceOk s → regionOk s (dstAddr s) ((srcLen s + 7) / 8) → ¬sourceApart s ((srcLen s + 7) / 8) →
      exec .bdec s = .next (withCode s .overlapErr)) ∧
    (sourceOk s → regionOk s (dstAddr s) ((srcLen s + 7) / 8) → sourceApart s ((srcLen s + 7) / 8) →
      (∃ k, k < srcLen s ∧ sourceSymbol s k ≠ 0x30 ∧ sourceSymbol s k ≠ 0x31) →
      exec .bdec s = .next (withCode s .decodeErr)) ∧
    (sourceOk s → regionOk s (dstAddr s) ((srcLen s + 7) / 8) → sourceApart s ((srcLen s + 7) / 8) →
      (∀ k, k < srcLen s → sourceSymbol s k = 0x30 ∨ sourceSymbol s k = 0x31) →
      ∃ t, exec .bdec s = .next t ∧ frame s t ∧ t.status = s.status ∧
        t.results.rlen.toNat = (srcLen s + 7) / 8 ∧ t.results.hdr = s.results.hdr ∧
        t.results.bitcnt = s.results.bitcnt ∧
        decodedAt t (dstAddr s) (srcLen s) (fun k => sourceSymbol s k == 0x31) ∧
        onlyRegion s t (dstAddr s) ((srcLen s + 7) / 8))

/-- BENC, then BDEC from the BENC output region, returns the text (40_bitcodec.md R97). `s` runs BENC to `t`; `s2` is any
state with `t`'s memory whose operands point BDEC at BENC's output. -/
def Obligations.BencThenBdecReturnsText : Prop :=
  (∀ x : List Byte, bitDecode (bitEncode x) = x) ∧
  ∀ s s2 t : State, s.params.wf = true → Memory.wf s.mem = true → s.status.errcode = .none →
    exec .benc s = .next t → t.status.errcode = .none →
    s2.mem = t.mem → s2.params = t.params → s2.status.errcode = .none →
    srcAddr s2 = dstAddr s → srcLen s2 = 8 * srcLen s →
    regionOk s2 (dstAddr s2) (srcLen s) → sourceApart s2 (srcLen s) →
    ∃ u, exec .bdec s2 = .next u ∧ u.status.errcode = .none ∧ u.results.rlen.toNat = srcLen s ∧
      ∀ j, j < srcLen s → memRead u (dstAddr s2 + j) = memRead s (srcAddr s + j)

/-! ### EMBED -/

/-- EMBED (41_steganographer.md R110). The memory is in canonical form, an invariant (StepKeepsInvariant). -/
def Obligations.EmbedWritesStream : Prop :=
  decode 0x00000003 = .ok .embed ∧
  ∀ s : State, Memory.wf s.mem = true →
    (¬(sourceOk s ∧ gridOk s) → exec .embed s = .next (withCode s .addrErr)) ∧
    (sourceOk s → gridOk s → ¬textApart s → exec .embed s = .next (withCode s .overlapErr)) ∧
    (sourceOk s → gridOk s → textApart s → 8191 < srcLen s → exec .embed s = .next (withCode s .lengthErr)) ∧
    (sourceOk s → gridOk s → textApart s → srcLen s ≤ 8191 → pixelCount s < 16 + 8 * srcLen s →
      s.ctrl.truncEn = false →
      ∃ t, exec .embed s = .next t ∧ frame s t ∧ t.mem = s.mem ∧
        t.status = { s.status with errcode := .capacityErr } ∧ t.results.hdr.toNat = 8 * srcLen s ∧
        t.results.rlen = s.results.rlen ∧ t.results.bitcnt = s.results.bitcnt) ∧
    (sourceOk s → gridOk s → textApart s → srcLen s ≤ 8191 →
      (16 + 8 * srcLen s ≤ pixelCount s ∨ s.ctrl.truncEn = true) →
      ∃ t, exec .embed s = .next t ∧ frame s t ∧ t.status = s.status ∧
        t.results.hdr.toNat = 8 * srcLen s ∧ t.results.rlen = s.results.rlen ∧
        t.results.bitcnt.toNat = min (16 + 8 * srcLen s) (pixelCount s) ∧
        (∀ k, k < min (16 + 8 * srcLen s) (pixelCount s) → embeddedAt s t k (streamBit s k)) ∧
        ∀ a, (∀ k, k < min (16 + 8 * srcLen s) (pixelCount s) → a ≠ gridAddr s + 4 * k) →
          memRead t a = memRead s a)

/-- EMBED and EXTRACT use one bit placement (41_steganographer.md R111): stream bit k is bit 0 of the red byte of pixel
(k mod W, k div W), whose address in the row-major layout is GRID + 4(yW + x). -/
def Obligations.BitPlacementIsRowMajor : Prop :=
  (∀ w x y : Nat, x < w → scanIndex w x y % w = x ∧ scanIndex w x y / w = y) ∧
  (∀ (s t : State) (x y : Nat), Memory.wf s.mem = true → s.status.errcode = .none →
    exec .embed s = .next t → t.status.errcode = .none → x < gridWidth s → y < gridHeight s →
    scanIndex (gridWidth s) x y < min (16 + 8 * srcLen s) (pixelCount s) →
    (memRead t (gridAddr s + 4 * (y * gridWidth s + x))).getLsbD 0
      = streamBit s (scanIndex (gridWidth s) x y)) ∧
  (∀ (s : State) (x y : Nat), x < gridWidth s →
    (readLsbs s (gridAddr s) 0 (pixelCount s))[scanIndex (gridWidth s) x y]? =
      if y < gridHeight s then some ((memRead s (gridAddr s + 4 * (y * gridWidth s + x))).getLsbD 0) else none)

/-- The capacity policy (41_steganographer.md R112): with TRUNC_EN = 0 a grid one pixel short raises CAPACITY_ERR and
nothing is written; with TRUNC_EN = 1 the first P bits are written, BITCNT = P and no error is raised; a grid of exactly
16 + 8n pixels succeeds under either policy. -/
def Obligations.CapacityPolicy : Prop :=
  ∀ s : State, Memory.wf s.mem = true → s.status.errcode = .none → sourceOk s → gridOk s → textApart s →
    srcLen s ≤ 8191 →
    ∃ t, exec .embed s = .next t ∧
      (pixelCount s < 16 + 8 * srcLen s → s.ctrl.truncEn = false →
        t.status.errcode = .capacityErr ∧ t.mem = s.mem) ∧
      (pixelCount s < 16 + 8 * srcLen s → s.ctrl.truncEn = true →
        t.status.errcode = .none ∧ t.results.bitcnt.toNat = pixelCount s ∧
        t.results.bitcnt.toNat < 16 + t.results.hdr.toNat ∧
        ∀ k, k < pixelCount s → (memRead t (gridAddr s + 4 * k)).getLsbD 0 = streamBit s k) ∧
      (pixelCount s = 16 + 8 * srcLen s →
        t.status.errcode = .none ∧ t.results.bitcnt.toNat = 16 + 8 * srcLen s)

/-- What EMBED leaves alone (41_steganographer.md R113), however it ends: only red bytes red(k) with k < N may change,
and in them only bit 0. -/
def Obligations.EmbedTouchesOnlyRedLsbs : Prop :=
  ∀ s t : State, Memory.wf s.mem = true → exec .embed s = .next t →
    (∀ a, (∀ k, k < min (16 + 8 * srcLen s) (pixelCount s) → a ≠ gridAddr s + 4 * k) →
      memRead t a = memRead s a) ∧
    (∀ a i, 1 ≤ i → (memRead t a).getLsbD i = (memRead s a).getLsbD i)

/-- The header (41_steganographer.md R114): 16 digits of 8n; the length fits exactly when n ≤ 8191; a longer text raises
LENGTH_ERR and writes nothing; and the source's ten-character example. -/
def Obligations.HeaderHoldsPayloadLength : Prop :=
  (∀ n : Nat, 8 * n < 2 ^ 16 ↔ n ≤ 8191) ∧
  (∀ t : List Byte, (embedStream t).take 16 = bin 16 (8 * t.length) ∧ (bitEncode t).length = 8 * t.length) ∧
  (∀ s : State, sourceOk s → gridOk s → textApart s → 8192 ≤ srcLen s →
    exec .embed s = .next (withCode s .lengthErr)) ∧
  bin 16 80 = [false, false, false, false, false, false, false, false,
    false, true, false, true, false, false, false, false]

/-- Determinism and repetition (41_steganographer.md R115): two runs whose regions pass the checks, over the same text
bytes, grid bytes, W, H and TRUNC_EN, end with the same result code, the same result registers and the same grid, wherever
the text and the grid lie and whether EMBED succeeds or raises LENGTH_ERR or CAPACITY_ERR; and a second run with the same
operands, however the first ended, leaves the memory as the first. The region checks themselves compare SRC, GRID and
MEM_BYTES (R110), so they are premises of the first clause. -/
def Obligations.EmbedRepeatsExactly : Prop :=
  (∀ s s' t t' : State, Memory.wf s.mem = true → Memory.wf s'.mem = true →
    s.status.errcode = .none → s'.status.errcode = .none →
    sourceOk s → gridOk s → textApart s → sourceOk s' → gridOk s' → textApart s' →
    exec .embed s = .next t → exec .embed s' = .next t' →
    srcLen s' = srcLen s → gridWidth s' = gridWidth s → gridHeight s' = gridHeight s →
    s'.ctrl.truncEn = s.ctrl.truncEn → s'.results = s.results →
    (∀ j, j < srcLen s → memRead s' (srcAddr s' + j) = memRead s (srcAddr s + j)) →
    (∀ o, o < 4 * pixelCount s → memRead s' (gridAddr s' + o) = memRead s (gridAddr s + o)) →
    t'.status.errcode = t.status.errcode ∧ t'.results = t.results ∧
    ∀ o, o < 4 * pixelCount s → memRead t' (gridAddr s' + o) = memRead t (gridAddr s + o)) ∧
  (∀ s s2 t : State, Memory.wf s.mem = true → exec .embed s = .next t →
    s2.mem = t.mem → s2.params = s.params → s2.operands = s.operands → s2.ctrl.truncEn = s.ctrl.truncEn →
    ∃ u, exec .embed s2 = .next u ∧ u.mem = t.mem)

/-- The empty message (41_steganographer.md R116). -/
def Obligations.EmbedEmptyMessage : Prop :=
  ∀ s : State, Memory.wf s.mem = true → srcLen s = 0 → 16 ≤ pixelCount s → gridOk s →
    (∀ k, k < 16 → streamBit s k = false) ∧
    ∃ t, exec .embed s = .next t ∧ frame s t ∧ t.status = s.status ∧
      t.results.hdr = 0 ∧ t.results.bitcnt = 16 ∧ t.results.rlen = s.results.rlen ∧
      (∀ k, k < 16 → embeddedAt s t k false) ∧
      ∀ a, (∀ k, k < 16 → a ≠ gridAddr s + 4 * k) → memRead t a = memRead s a

/-! ### EXTRACT -/

/-- EXTRACT (41_steganographer.md R120): with the grid's header value `length`, every way it ends. The memory is in
canonical form, an invariant (StepKeepsInvariant). -/
def Obligations.ExtractRecoversText : Prop :=
  decode 0x00000004 = .ok .extract ∧
  ∀ s : State, s.params.wf = true → Memory.wf s.mem = true →
    (¬gridOk s → exec .extract s = .next (withCode s .addrErr)) ∧
    (gridOk s → pixelCount s < 16 →
      exec .extract s = .next (withCode
        { s with results := { s.results with bitcnt := BitVec.ofNat 32 (pixelCount s) } } .headerErr)) ∧
    ∃ length, isHeader s length ∧
      (gridOk s → 16 ≤ pixelCount s → pixelCount s - 16 < length →
        exec .extract s = .next (withCode
          { s with results := { s.results with
              hdr := BitVec.ofNat 16 length, bitcnt := BitVec.ofNat 32 (pixelCount s) } } .payloadTrunc)) ∧
      (gridOk s → 16 + length ≤ pixelCount s → ¬regionOk s (dstAddr s) ((length + 7) / 8) →
        exec .extract s = .next (withCode
          { s with results := { s.results with
              hdr := BitVec.ofNat 16 length, bitcnt := BitVec.ofNat 32 (16 + length) } } .addrErr)) ∧
      (gridOk s → 16 + length ≤ pixelCount s → regionOk s (dstAddr s) ((length + 7) / 8) →
        ¬gridApart s ((length + 7) / 8) →
        exec .extract s = .next (withCode
          { s with results := { s.results with
              hdr := BitVec.ofNat 16 length, bitcnt := BitVec.ofNat 32 (16 + length) } } .overlapErr)) ∧
      (gridOk s → 16 + length ≤ pixelCount s → regionOk s (dstAddr s) ((length + 7) / 8) →
        gridApart s ((length + 7) / 8) →
        ∃ t, exec .extract s = .next t ∧ frame s t ∧ t.status = s.status ∧
          t.results.hdr.toNat = length ∧ t.results.bitcnt.toNat = 16 + length ∧
          t.results.rlen.toNat = (length + 7) / 8 ∧
          decodedAt t (dstAddr s) length (fun k => lsb s (16 + k)) ∧
          onlyRegion s t (dstAddr s) ((length + 7) / 8))

/-- HEADER_ERR arises only from EXTRACT on a grid of fewer than 16 pixels, with BITCNT = P and HDR as the start left it
(41_steganographer.md R122). -/
def Obligations.HeaderErrOnlyOnSmallGrid : Prop :=
  ∀ (i : Instr) (s t : State), s.status.errcode = .none → s.results = .zero → exec i s = .next t →
    (t.status.errcode = .headerErr ↔ i = .extract ∧ gridOk s ∧ pixelCount s < 16) ∧
    (t.status.errcode = .headerErr → t.results.bitcnt.toNat = pixelCount s ∧ t.results.hdr = 0 ∧ t.mem = s.mem)

/-- PayloadTruncated (41_steganographer.md R123): fewer than `length` pixels after the header. -/
def Obligations.ShortGridRaisesPayloadTrunc : Prop :=
  ∀ (s : State), gridOk s → 16 ≤ pixelCount s → pixelCount s - 16 < headerValue s →
    isHeader s (headerValue s) ∧
    ∃ t, exec .extract s = .next t ∧ frame s t ∧ t.status = { s.status with errcode := .payloadTrunc } ∧
      t.mem = s.mem ∧ t.results.hdr.toNat = headerValue s ∧ t.results.bitcnt.toNat = pixelCount s ∧
      t.results.rlen = s.results.rlen

/-- DECODE_ERR is raised only by BDEC (41_steganographer.md R124). -/
def Obligations.OnlyBdecRaisesDecodeErr : Prop :=
  ∀ (i : Instr) (s t : State), s.status.errcode = .none → exec i s = .next t →
    t.status.errcode = .decodeErr → i = .bdec

/-- EXTRACT is read-only on the grid: it writes no byte of the grid region, only the bytes at DST
(41_steganographer.md R125). -/
def Obligations.ExtractKeepsGrid : Prop :=
  ∀ s t : State, exec .extract s = .next t →
    (∀ o, o < 4 * pixelCount s → memRead t (gridAddr s + o) = memRead s (gridAddr s + o)) ∧
    onlyRegion s t (dstAddr s) ((headerValue s + 7) / 8)

/-! ### Laws of the pair -/

/-- EMBED then EXTRACT returns the text (41_steganographer.md R126). `s` runs EMBED to `t`; `s2` is any state with `t`'s
memory and the same grid, whose DST passes its checks. With TRUNC_EN = 0 a successful EMBED always had the capacity. -/
def Obligations.EmbedExtractRoundTrip : Prop :=
  (∀ s t : State, s.status.errcode = .none → s.ctrl.truncEn = false → exec .embed s = .next t →
    t.status.errcode = .none → 16 + 8 * srcLen s ≤ pixelCount s) ∧
  ∀ s s2 t : State, s.params.wf = true → Memory.wf s.mem = true → s.status.errcode = .none →
    exec .embed s = .next t → t.status.errcode = .none → 16 + 8 * srcLen s ≤ pixelCount s →
    s2.mem = t.mem → s2.params = s.params → s2.status.errcode = .none →
    gridAddr s2 = gridAddr s → gridWidth s2 = gridWidth s → gridHeight s2 = gridHeight s →
    regionOk s2 (dstAddr s2) (srcLen s) → gridApart s2 (srcLen s) →
    ∃ u, exec .extract s2 = .next u ∧ u.status.errcode = .none ∧
      u.results.hdr.toNat = 8 * srcLen s ∧ u.results.bitcnt.toNat = 16 + 8 * srcLen s ∧
      u.results.rlen.toNat = srcLen s ∧
      ∀ j, j < srcLen s → memRead u (dstAddr s2 + j) = memRead s (srcAddr s + j)

/-- A truncated EMBED is always detected at EXTRACT when the header fits (41_steganographer.md R127). -/
def Obligations.TruncatedEmbedIsDetected : Prop :=
  ∀ s s2 t : State, Memory.wf s.mem = true → s.status.errcode = .none → s.ctrl.truncEn = true →
    exec .embed s = .next t → t.status.errcode = .none → pixelCount s < 16 + 8 * srcLen s →
    s2.mem = t.mem → s2.params = s.params → s2.status.errcode = .none →
    gridAddr s2 = gridAddr s → gridWidth s2 = gridWidth s → gridHeight s2 = gridHeight s →
    ∃ u, exec .extract s2 = .next u ∧
      (pixelCount s < 16 → u.status.errcode = .headerErr) ∧
      (16 ≤ pixelCount s → u.status.errcode = .payloadTrunc ∧ u.results.hdr.toNat = 8 * srcLen s ∧
        u.results.bitcnt.toNat = pixelCount s)

/-- Only the pixel count P = W·H matters to EXTRACT, not W and H (70_reset_and_hazards.md R178). -/
def Obligations.ExtractDependsOnlyOnPixelCount : Prop :=
  ∀ s s' t t' : State, s'.params = s.params → s'.mem = s.mem → s'.status = s.status → s'.results = s.results →
    gridAddr s' = gridAddr s → dstAddr s' = dstAddr s → pixelCount s' = pixelCount s →
    exec .extract s = .next t → exec .extract s' = .next t' →
    t'.mem = t.mem ∧ t'.status = t.status ∧ t'.results = t.results

/-! ### Operands and errors -/

/-- A register that 30_encoding.md R73's table does not list for a command does not affect it. -/
def Obligations.UnlistedRegistersDoNotMatter : Prop :=
  ∀ (i : Instr) (s s' t t' : State), sameOperands i s s' → s'.params = s.params → s'.mem = s.mem →
    s'.results = s.results → s'.status.errcode = s.status.errcode →
    exec i s = .next t → exec i s' = .next t' →
    t'.mem = t.mem ∧ t'.results = t.results ∧ t'.status.errcode = t.status.errcode

/-- Priority (60_exceptions.md R142): a command reports the first check that fails, and decode comes before all. -/
def Obligations.FirstFailingCheckIsReported : Prop :=
  (∀ (i : Instr) (s t : State), s.status.errcode = .none → exec i s = .next t →
    t.status.errcode = firstFailing s i) ∧
  (∀ s : State, illegalWord s.cmd → execute s = .next (withCode s .illegalCmd))

/-- What an error records (60_exceptions.md R143): the code, BUSY and DONE, and the result registers of R140's last
column; no buffer byte, no operand register and no CTRL bit changes. The premise startedClean is part of the invariant
(StepKeepsInvariant). -/
def Obligations.ErrorsArePrecise : Prop :=
  ∀ s u t : State, engineNext s u → s.status.busy = true → s.startedClean = true → step s = .next t →
    t.status.errcode ≠ .none →
    t = { u with
      status := { busy := false, done := true, haz := s.status.haz, errcode := t.status.errcode }
      results := recorded s t.status.errcode }

/-- The region checks (20_memory.md R55, R56). -/
def Obligations.RegionChecks : Prop :=
  (∀ (s : State) (b n : Nat), inRange s b n = true ↔ n = 0 ∨ b + n ≤ s.params.memBytes) ∧
  (∀ b1 n1 b2 n2 : Nat, disjoint b1 n1 b2 n2 = true ↔ n1 = 0 ∨ n2 = 0 ∨ b1 + n1 ≤ b2 ∨ b2 + n2 ≤ b1)

/-! ### The register port -/

/-- A register read returns the register of the map, reserved fields and offsets 0, and has no side effect, busy or idle
(10_state.md R20, R21, R24, R29, R30, R32, R34; 20_memory.md R57). -/
def Obligations.RegisterReadsFollowTheMap : Prop :=
  ∀ (s : State) (o : Fin 64) (ts : List Turn), o.val % 4 = 0 → hostNext s (.regRead 32 o) ts →
    ∃ v : Word, step s = .next { s with env := answered s ts (.regRead 32 o) (.regData v) } ∧
      v.toNat =
        match o.val with
        | 0x00 => s.ctrl.ie.toNat + 2 * s.ctrl.truncEn.toNat
        | 0x04 => s.cmd.toNat
        | 0x08 => s.status.busy.toNat + 2 * s.status.done.toNat + 4 * s.status.haz.toNat +
            256 * s.status.errcode.code.toNat
        | 0x0C => s.operands.src.toNat
        | 0x10 => s.operands.slen.toNat
        | 0x14 => s.operands.dst.toNat
        | 0x18 => s.operands.grid.toNat
        | 0x1C => s.operands.gw.toNat
        | 0x20 => s.operands.gh.toNat
        | 0x24 => s.results.rlen.toNat
        | 0x28 => s.results.hdr.toNat
        | 0x2C => s.results.bitcnt.toNat
        | _ => 0

/-- A register write while idle: what each register of the map stores (10_state.md R20, R21, R25 to R30, R34). CMD is
CommandStart's, STATUS is StatusWriteClears's. -/
def Obligations.IdleRegisterWrites : Prop :=
  ∀ (s : State) (o : Fin 64) (v : Word) (ts : List Turn), s.status.busy = false → o.val % 4 = 0 →
    o.val ≠ 0x04 → o.val ≠ 0x08 → hostNext s (.regWrite 32 o v) ts →
    step s = .next { s with
      ctrl := if o.val = 0x00 then { ie := v.getLsbD 0, truncEn := v.getLsbD 1 } else s.ctrl
      operands :=
        { src := if o.val = 0x0C then v else s.operands.src
          slen := if o.val = 0x10 then v else s.operands.slen
          dst := if o.val = 0x14 then v else s.operands.dst
          grid := if o.val = 0x18 then v else s.operands.grid
          gw := if o.val = 0x1C then BitVec.ofNat 16 v.toNat else s.operands.gw
          gh := if o.val = 0x20 then BitVec.ofNat 16 v.toNat else s.operands.gh }
      env := answered s ts (.regWrite 32 o v) .accepted }

/-- A write to STATUS, busy or idle: a 1 in bit 1 clears DONE, a 1 in bit 2 clears HAZ, and nothing else changes
(10_state.md R24). -/
def Obligations.StatusWriteClears : Prop :=
  ∀ (s : State) (v : Word) (ts : List Turn), hostNext s (.regWrite 32 0x08 v) ts →
    step s = .next { s with
      status := ackedStatus s.status v
      env := answered s ts (.regWrite 32 0x08 v) .accepted }

/-- The CMD register (10_state.md R22): a write while idle is stored and starts a command, whatever the value; a write
while BUSY is ignored and sets HAZ; a read returns the value stored and has no side effect; an illegal value completes
with ILLEGAL_CMD; the value is 0 after reset. -/
def Obligations.CmdRegister : Prop :=
  (∀ (s : State) (v : Word) (ts : List Turn), s.status.busy = false → hostNext s (.regWrite 32 0x04 v) ts →
    ∃ t, step s = .next t ∧ t.cmd = v ∧ t.status.busy = true) ∧
  (∀ (s : State) (v : Word) (ts : List Turn), s.status.busy = true → hostNext s (.regWrite 32 0x04 v) ts →
    step s = .next { s with
      status := { s.status with haz := true }, env := answered s ts (.regWrite 32 0x04 v) .accepted }) ∧
  (∀ (s : State) (ts : List Turn), hostNext s (.regRead 32 0x04) ts →
    step s = .next { s with env := answered s ts (.regRead 32 0x04) (.regData s.cmd) }) ∧
  (∀ s u : State, engineNext s u → s.status.busy = true → illegalWord s.cmd →
    ∃ t, step s = .next t ∧ t.status.busy = false ∧ t.status.errcode = .illegalCmd) ∧
  (∀ (p : Config.Params) (init : Memory), (State.powerOn p init).cmd = 0x00000000)

/-- Host register accesses while BUSY (20_memory.md R61): a write to any offset other than STATUS changes no register and
sets HAZ; a write to STATUS has its W1C effect and does not set HAZ; reads are unaffected. -/
def Obligations.RegisterAccessesWhileBusy : Prop :=
  ∀ (s : State) (o : Fin 64) (v : Word) (ts : List Turn), s.status.busy = true → o.val % 4 = 0 →
    (o.val ≠ 0x08 → hostNext s (.regWrite 32 o v) ts →
      step s = .next { s with
        status := { s.status with haz := true }, env := answered s ts (.regWrite 32 o v) .accepted }) ∧
    (o.val = 0x08 → hostNext s (.regWrite 32 o v) ts →
      step s = .next { s with
        status := ackedStatus s.status v, env := answered s ts (.regWrite 32 o v) .accepted }) ∧
    (hostNext s (.regRead 32 o) ts →
      step s = .next { s with
        env := answered s ts (.regRead 32 o) (.regData (readReg s (regOfOffset o))) })

/-- While BUSY, CMD, the operand registers and CTRL keep the values they had, whatever the next turn, unless it is a
reset; and the command executed is the value held in CMD (10_state.md R23). -/
def Obligations.BusyKeepsOperands : Prop :=
  (∀ s t : State, s.status.busy = true → (∀ ts, ¬hostNext s .reset ts) → step s = .next t →
    t.cmd = s.cmd ∧ t.operands = s.operands ∧ t.ctrl = s.ctrl) ∧
  ∀ (s u t : State) (i : Instr), engineNext s u → s.status.busy = true → s.cmd = encode i → step s = .next t →
    ∃ v, exec i u = .next v ∧ t = finish v

/-- The result registers change only by the engine's completion step, by a command's start or by reset (10_state.md
R35, 20_memory.md R59). -/
def Obligations.ResultsChangeOnlyByCommandOrReset : Prop :=
  ∀ s t : State, step s = .next t → t.results ≠ s.results →
    (s.status.busy = true ∧ ∃ u, engineNext s u) ∨
    (s.status.busy = false ∧ ∃ v ts, hostNext s (.regWrite 32 0x04 v) ts) ∨
    ∃ ts, hostNext s .reset ts

/-- HAZ is set exactly by a host register write other than to STATUS, or a host buffer access, while BUSY, and cleared
only by a 1 written to bit 2 of STATUS or by reset: a command's start does not clear it (10_state.md R24). -/
def Obligations.HazIsSticky : Prop :=
  ∀ s t : State, step s = .next t →
    (s.status.haz = true → t.status.haz = false →
      (∃ v ts, v.getLsbD 2 = true ∧ hostNext s (.regWrite 32 0x08 v) ts) ∨ ∃ ts, hostNext s .reset ts) ∧
    (s.status.haz = false → (t.status.haz = true ↔ s.status.busy = true ∧
      ((∃ o v ts, o.val % 4 = 0 ∧ o.val ≠ 0x08 ∧ hostNext s (.regWrite 32 o v) ts) ∨
       (∃ a ts, a < s.params.memBytes ∧ hostNext s (.bufRead 8 a) ts) ∨
       ∃ a v ts, a < s.params.memBytes ∧ hostNext s (.bufWrite 8 a v) ts)))

/-- A command starts only by a CMD write while idle (10_state.md R22). -/
def Obligations.OnlyCmdWriteStartsCommand : Prop :=
  ∀ s t : State, step s = .next t → s.status.busy = false → t.status.busy = true →
    ∃ v ts, hostNext s (.regWrite 32 0x04 v) ts ∧ t.cmd = v

/-! ### The buffer port -/

/-- The buffer port (20_memory.md R58): bus error, read and write while idle, and what R62 says while BUSY. -/
def Obligations.BufferPort : Prop :=
  ∀ (s : State) (ts : List Turn), Memory.wf s.mem = true →
    (∀ w a, w ≠ 8 ∨ s.params.memBytes ≤ a → hostNext s (.bufRead w a) ts →
      step s = .next { s with env := answered s ts (.bufRead w a) .busError }) ∧
    (∀ w a v, w ≠ 8 ∨ s.params.memBytes ≤ a → hostNext s (.bufWrite w a v) ts →
      step s = .next { s with env := answered s ts (.bufWrite w a v) .busError }) ∧
    (∀ a, a < s.params.memBytes → s.status.busy = false → hostNext s (.bufRead 8 a) ts →
      step s = .next { s with env := answered s ts (.bufRead 8 a) (.bufData (memRead s a)) }) ∧
    (∀ a v, a < s.params.memBytes → s.status.busy = false → hostNext s (.bufWrite 8 a v) ts →
      ∃ t, step s = .next { t with env := answered s ts (.bufWrite 8 a v) .accepted } ∧
        t = { s with mem := t.mem } ∧ ∀ x, memRead t x = if x = a then v else memRead s x) ∧
    (∀ a, a < s.params.memBytes → s.status.busy = true → hostNext s (.bufRead 8 a) ts →
      step s = .next { s with
        status := { s.status with haz := true }, env := answered s ts (.bufRead 8 a) (.bufData 0x00) }) ∧
    (∀ a v, a < s.params.memBytes → s.status.busy = true → hostNext s (.bufWrite 8 a v) ts →
      step s = .next { s with
        status := { s.status with haz := true }, env := answered s ts (.bufWrite 8 a v) .accepted })

/-- Host buffer accesses while BUSY (20_memory.md R62). -/
def Obligations.BufferAccessesWhileBusy : Prop :=
  ∀ (s : State) (a : Nat) (v : Byte) (ts : List Turn), s.status.busy = true → a < s.params.memBytes →
    (hostNext s (.bufRead 8 a) ts →
      step s = .next { s with
        status := { s.status with haz := true }, env := answered s ts (.bufRead 8 a) (.bufData 0x00) }) ∧
    (hostNext s (.bufWrite 8 a v) ts →
      step s = .next { s with
        status := { s.status with haz := true }, env := answered s ts (.bufWrite 8 a v) .accepted })

/-- A bus error changes no state, busy or idle, and does not change `irq` (60_exceptions.md R146). -/
def Obligations.BusErrorsChangeNothing : Prop :=
  ∀ (s : State) (tr : Transaction) (ts : List Turn), badAccess s tr → hostNext s tr ts →
    step s = .next { s with env := answered s ts tr .busError } ∧
      irq { s with env := answered s ts tr .busError } = irq s

/-- Every host write other than a CMD write the port admits is idempotent (20_memory.md R65; for STATUS its W1C rule,
10_state.md R24): made again, it leaves the same state and gets the same response. Idle or busy, at the register port and
the buffer port, and for an access that gets a bus error. The memory is in canonical form, an invariant
(StepKeepsInvariant). -/
def Obligations.HostWritesAreIdempotent : Prop :=
  (∀ (s : State) (w : Nat) (o : Fin 64) (v : Word), ¬(w = 32 ∧ o.val = 0x04) →
    transact (.regWrite w o v) (transact (.regWrite w o v) s).1 = transact (.regWrite w o v) s) ∧
  (∀ (s : State) (w a : Nat) (v : Byte), Memory.wf s.mem = true →
    transact (.bufWrite w a v) (transact (.bufWrite w a v) s).1 = transact (.bufWrite w a v) s)

/-- Memories in canonical form that read alike are equal data (the model's own form, log entry 3). -/
def Obligations.CanonicalMemoryIsUnique : Prop :=
  ∀ m m' : Memory, Memory.wf m = true → Memory.wf m' = true → (∀ a, Memory.read m a = Memory.read m' a) → m = m'

/-! ### The interrupt -/

/-- The interrupt output (60_exceptions.md R150). -/
def Obligations.InterruptFollowsDone : Prop :=
  (∀ s : State, irq s = true ↔ s.status.done = true ∧ s.ctrl.ie = true) ∧
  (∀ s u t : State, engineNext s u → s.status.busy = true → step s = .next t →
    t.status.done = true ∧ irq t = s.ctrl.ie) ∧
  (∀ (s : State) (v : Word) (ts : List Turn), s.status.busy = false → hostNext s (.regWrite 32 0x00 v) ts →
    ∃ t, step s = .next t ∧ t.status.done = s.status.done ∧ irq t = (s.status.done && v.getLsbD 0)) ∧
  (∀ (s : State) (v : Word) (ts : List Turn), v.getLsbD 1 = true → hostNext s (.regWrite 32 0x08 v) ts →
    ∃ t, step s = .next t ∧ irq t = false) ∧
  (∀ (s : State) (v : Word) (ts : List Turn), s.status.busy = false → hostNext s (.regWrite 32 0x04 v) ts →
    ∃ t, step s = .next t ∧ irq t = false) ∧
  (∀ (s : State) (h : Bool), irq { s with status := { s.status with haz := h } } = irq s) ∧
  (∀ (s : State) (tr : Transaction) (ts : List Turn), badAccess s tr → hostNext s tr ts →
    ∃ t, step s = .next t ∧ irq t = irq s)

/-! ### Reset -/

/-- Reset (70_reset_and_hazards.md R170, R171): every register 0, `irq` 0, and the memory as it was, while idle all of it
and while BUSY but for the bytes of the abandoned command's write set (R172, ResetWhileBusy). -/
def Obligations.ResetClearsRegisters : Prop :=
  ∀ (s : State) (ts : List Turn), hostNext s .reset ts →
    ∃ t, step s = .next t ∧ irq t = false ∧
      t.ctrl = { ie := false, truncEn := false } ∧ t.cmd = 0x00000000 ∧
      t.status = { busy := false, done := false, haz := false, errcode := .none } ∧
      t.operands = { src := 0, slen := 0, dst := 0, grid := 0, gw := 0, gh := 0 } ∧
      t.results = { rlen := 0, hdr := 0, bitcnt := 0 } ∧
      (s.status.busy = false → t.mem = s.mem) ∧
      (∀ a, memRead t a ≠ memRead s a → ∃ i k, s.cmd = encode i ∧ k < writeCount s i ∧ a = writeAddr s i k)

/-- Reset while BUSY (70_reset_and_hazards.md R172): the command is abandoned; if it would have completed with NONE, each
byte of its write set holds a free value of its own and every other byte is unchanged; if it would have ended in an error,
or is illegal, memory is unchanged. And nothing but reset and the engine's completion step ends a command.

That byte `k` of the write set is the free value drawn `k`-th, in the order the command writes, and that the counter
State.env.draws advances by the number of bytes are the model's choice (DESIGN CHOICE, log entry 4), and so is judging the
abandoned command's outcome at the state the reset finds (DEDUCED, log entry 13). -/
def Obligations.ResetWhileBusy : Prop :=
  (∀ (s : State) (ts : List Turn), Memory.wf s.mem = true → s.status.busy = true → hostNext s .reset ts →
    ∃ t, step s = .next t ∧ t.status.busy = false ∧ t.status.done = false ∧
      (illegalWord s.cmd → t.mem = s.mem) ∧
      ∀ (i : Instr) (v : State), s.cmd = encode i → exec i s = .next v →
        (v.status.errcode ≠ .none → t.mem = s.mem) ∧
        (v.status.errcode = .none →
          t.env.draws = s.env.draws + writeCount s i ∧
          (∀ k, k < writeCount s i → memRead t (writeAddr s i k) = Config.freeByte (s.env.draws + k)) ∧
          ∀ a, (∀ k, k < writeCount s i → a ≠ writeAddr s i k) → memRead t a = memRead s a)) ∧
  (∀ s t : State, step s = .next t → s.status.busy = true → t.status.busy = false →
    (∃ u, engineNext s u) ∨ ∃ ts, hostNext s .reset ts)

/-- Power-on (70_reset_and_hazards.md R173): the registers hold the values of R170 and memory holds MEM_INIT, for every
MEM_INIT; reading a byte that nothing has written is no fault and gives MEM_INIT's byte. -/
def Obligations.PowerOnHoldsMemInit : Prop :=
  ∀ (p : Config.Params) (init : Memory),
    (State.powerOn p init).ctrl = { ie := false, truncEn := false } ∧ (State.powerOn p init).cmd = 0 ∧
    (State.powerOn p init).status = { busy := false, done := false, haz := false, errcode := .none } ∧
    (State.powerOn p init).operands = { src := 0, slen := 0, dst := 0, grid := 0, gw := 0, gh := 0 } ∧
    (State.powerOn p init).results = { rlen := 0, hdr := 0, bitcnt := 0 } ∧
    (State.powerOn p init).mem = init ∧
    ∀ a, a < p.memBytes → ∃ t, step ((State.powerOn p init).withScript [rd8 a]) = .next t ∧
      t.env.history = [(.bufRead 8 a, .bufData (Memory.read init a))]

/-! ### Whole-machine rules -/

/-- The invariant holds at reset. -/
def Obligations.ResetMeetsInvariant : Prop := State.reset.inv = true

/-- Every step keeps the invariant: the parameters stay in range, the memory stays canonical and inside the buffer, a
command in flight keeps the cleared flags and result registers of its start, and the result registers agree with the
result code (10_state.md R31 to R33, R38; 20_memory.md R51, R59; 60_exceptions.md R140). -/
def Obligations.StepKeepsInvariant : Prop :=
  ∀ s t : State, s.inv = true → step s = .next t → t.inv = true

/-- No step changes a parameter (10_state.md R41). -/
def Obligations.ParametersNeverChange : Prop :=
  ∀ s t : State, step s = .next t → t.params = s.params

/-- Every command completes (00_scope.md R14): once the turns still to come are taken and the engine has one more, the
block is idle. That the engine moves once the script is used up is the model's form of the fairness assumption (log
entry 1). -/
def Obligations.EveryCommandCompletes : Prop :=
  ∀ s : State, ∃ t : State, Host.Core.run Sys2Proof.core (s.env.script.length + 1) s = .next t ∧
    t.status.busy = false ∧ t.env.script = []
end

