-- ==== Sys2Proof/Laws/Bits.lean ====
section
/-! SUPPORT. The laws of the bit-sequence functions: lengths, single digits, and that BitDecode undoes BitEncode. -/

namespace Sys2Proof.Machine

@[simp] theorem bin_length (width v : Nat) : (bin width v).length = width := by simp [bin]

theorem bin_getElem (width v i : Nat) (h : i < (bin width v).length) :
    (bin width v)[i] = v.testBit (width - 1 - i) := by simp [bin]

@[simp] theorem val_nil : val [] = 0 := rfl

theorem val_append_singleton (s : Bits) (b : Bool) : val (s ++ [b]) = 2 * val s + b.toNat := by
  simp [val]

/-- A digit string of length n has a value below 2^n (00_scope.md R9). -/
theorem val_lt (s : Bits) : val s < 2 ^ s.length := by
  induction s using List.reverseRecOn with
  | nil => simp
  | append_singleton s b ih =>
    rw [val_append_singleton, List.length_append, List.length_singleton, Nat.pow_succ]
    have hb := Bool.toNat_lt b
    omega

/-- The digits of a value, most significant first. -/
theorem val_testBit (s : Bits) (i : Nat) (h : i < s.length) :
    (val s).testBit (s.length - 1 - i) = s[i] := by
  induction s using List.reverseRecOn with
  | nil => simp at h
  | append_singleton s b ih =>
    rw [val_append_singleton]
    simp only [List.length_append, List.length_singleton] at h ⊢
    by_cases hi : i < s.length
    · have hs : s.length + 1 - 1 - i = (s.length - 1 - i) + 1 := by omega
      rw [hs, Nat.testBit_succ, show (2 * val s + b.toNat) / 2 = val s by
        have := Bool.toNat_lt b; omega, ih hi, List.getElem_append_left hi]
    · have hi' : i = s.length := by omega
      subst hi'
      rw [show s.length + 1 - 1 - s.length = 0 by omega]
      cases b <;> simp [Nat.testBit_zero]

/-- The digits of a value, most significant first, by position. -/
theorem getElem?_eq_testBit {s : Bits} {n i : Nat} (hn : s.length = n) (h : i < n) :
    s[i]? = some ((val s).testBit (n - 1 - i)) := by
  subst hn
  rw [val_testBit s i h, List.getElem?_eq_getElem h]

theorem bin_getElem? {width i : Nat} (v : Nat) (h : i < width) :
    (bin width v)[i]? = some (v.testBit (width - 1 - i)) := by
  rw [List.getElem?_eq_getElem (by simpa using h), bin_getElem]

/-- val undoes bin (00_scope.md R9). -/
theorem val_bin (width v : Nat) (h : v < 2 ^ width) : val (bin width v) = v := by
  apply Nat.eq_of_testBit_eq
  intro k
  have hl := val_lt (bin width v)
  rw [bin_length] at hl
  by_cases hk : k < width
  · have h1 := getElem?_eq_testBit (bin_length width v) (i := width - 1 - k) (by omega)
    rw [bin_getElem? v (by omega), show width - 1 - (width - 1 - k) = k by omega] at h1
    exact (Option.some.inj h1).symm
  · have hp : 2 ^ width ≤ 2 ^ k := Nat.pow_le_pow_right (by omega) (by omega)
    rw [Nat.testBit_lt_two_pow (by omega), Nat.testBit_lt_two_pow (by omega)]

@[simp] theorem bitEncode_nil : bitEncode [] = [] := rfl

@[simp] theorem bitEncode_cons (c : Byte) (t : List Byte) : bitEncode (c :: t) = bin 8 c.toNat ++ bitEncode t := rfl

@[simp] theorem bitEncode_length (t : List Byte) : (bitEncode t).length = 8 * t.length := by
  induction t with
  | nil => rfl
  | cons c t ih => rw [bitEncode_cons, List.length_append, ih, bin_length, List.length_cons]; omega

/-- Digit 8j + i of BitEncode(t) is bit 7 - i of t[j] (40_bitcodec.md R90). -/
theorem bitEncode_getElem? (t : List Byte) (j i : Nat) (hj : j < t.length) (hi : i < 8) :
    (bitEncode t)[8 * j + i]? = some (t[j].getLsbD (7 - i)) := by
  induction t generalizing j with
  | nil => simp at hj
  | cons c t ih =>
    rw [bitEncode_cons]
    cases j with
    | zero =>
      rw [List.getElem?_append_left (by simp; omega), List.getElem?_eq_getElem (by simp; omega), bin_getElem]
      simp [BitVec.getLsbD]
    | succ j =>
      rw [List.getElem?_append_right (by simp; omega), bin_length,
        show 8 * (j + 1) + i - 8 = 8 * j + i by omega, ih j (by simpa using hj)]
      simp

theorem ceil8_mul (n : Nat) : ceil8 (8 * n) = n := by unfold ceil8; omega

/-- The padded length is eight times the number of groups (40_bitcodec.md R93). -/
theorem leftPad_length (s : Bits) : (leftPad s).length = 8 * ceil8 s.length := by
  simp only [leftPad, List.length_append, List.length_replicate, padLength, ceil8]
  omega

theorem padLength_mul (n : Nat) : padLength (8 * n) = 0 := by unfold padLength; omega

theorem leftPad_of_mul (s : Bits) (n : Nat) (h : s.length = 8 * n) : leftPad s = s := by
  rw [leftPad, h, padLength_mul]; rfl

@[simp] theorem bitDecode_length (s : Bits) : (bitDecode s).length = ceil8 s.length := by simp [bitDecode]

theorem bitDecode_getElem (s : Bits) (j : Nat) (h : j < (bitDecode s).length) :
    (bitDecode s)[j] = BitVec.ofNat 8 (val (bitGroup (leftPad s) j)) := by simp [bitDecode]

theorem bitGroup_length (s : Bits) (j : Nat) (h : 8 * j + 8 ≤ s.length) : (bitGroup s j).length = 8 := by
  simp only [bitGroup, List.length_take, List.length_drop]; omega

/-- Bit 7 - i of character j of BitDecode(s) is digit 8j + i of the padded sequence (40_bitcodec.md R93). -/
theorem bitDecode_bit (s : Bits) (j i : Nat) (hj : j < (bitDecode s).length) (hi : i < 8) :
    some ((bitDecode s)[j].getLsbD (7 - i)) = (leftPad s)[8 * j + i]? := by
  have hp := leftPad_length s
  rw [bitDecode_length] at hj
  have hg : (bitGroup (leftPad s) j).length = 8 := bitGroup_length _ _ (by omega)
  rw [bitDecode_getElem, BitVec.getLsbD_ofNat, decide_eq_true (by omega : 7 - i < 8), Bool.true_and,
    ← getElem?_eq_testBit hg hi, bitGroup, List.getElem?_take_of_lt hi, List.getElem?_drop]

/-- BitDecode undoes BitEncode (40_bitcodec.md R97): the codec's digits are the text's bits. -/
theorem bitDecode_of_bits {s : Bits} {t : List Byte} (hl : s.length = 8 * t.length)
    (hb : ∀ j i (hj : j < t.length), i < 8 → s[8 * j + i]? = some (t[j].getLsbD (7 - i))) : bitDecode s = t := by
  have hlen : (bitDecode s).length = t.length := by rw [bitDecode_length, hl, ceil8_mul]
  refine List.ext_getElem hlen fun j h1 h2 => ?_
  refine BitVec.eq_of_getLsbD_eq fun k hk => ?_
  have h := bitDecode_bit s j (7 - k) h1 (by omega)
  rw [leftPad_of_mul s _ hl, hb j (7 - k) h2 (by omega), show 7 - (7 - k) = k by omega] at h
  exact Option.some.inj h

theorem symbol_ne_zero (b : Bool) : symbol b ≠ 0 := by cases b <;> decide

@[simp] theorem parseSymbol_symbol (b : Bool) : parseSymbol (symbol b) = some b := by cases b <;> rfl

theorem parseSymbol_eq_some {c : Byte} {b : Bool} : parseSymbol c = some b ↔ c = symbol b := by
  unfold parseSymbol symbol
  constructor
  · split
    · rintro ⟨⟩; simp_all
    · split
      · rintro ⟨⟩; simp_all
      · intro h; cases h
  · rintro rfl; cases b <;> rfl

@[simp] theorem parseSymbols_map_symbol (bs : Bits) : parseSymbols (bs.map symbol) = some bs := by
  induction bs with
  | nil => rfl
  | cons b bs ih => simp [parseSymbols, ih]

/-- A symbol string parses exactly when it is the symbols of a digit sequence (40_bitcodec.md R95). -/
theorem parseSymbols_eq_some {cs : List Byte} {bs : Bits} : parseSymbols cs = some bs ↔ cs = bs.map symbol := by
  constructor
  · intro h
    induction cs generalizing bs with
    | nil => cases h; rfl
    | cons c cs ih =>
      simp only [parseSymbols] at h
      split at h
      · cases h
        rename_i b bs h1 h2
        rw [List.map_cons, ← ih h2, ← parseSymbol_eq_some.mp h1]
      · cases h
  · rintro rfl; simp

/-- A symbol string fails to parse exactly when some symbol is invalid (40_bitcodec.md R95). -/
theorem parseSymbols_eq_none {cs : List Byte} :
    parseSymbols cs = none ↔ ∃ c ∈ cs, c ≠ 0x30 ∧ c ≠ 0x31 := by
  induction cs with
  | nil => simp [parseSymbols]
  | cons c cs ih =>
    have hc : parseSymbol c = none ↔ c ≠ 0x30 ∧ c ≠ 0x31 := by
      unfold parseSymbol; split <;> [simp_all; (split <;> simp_all)]
    simp only [parseSymbols]
    cases h1 : parseSymbol c with
    | none => simpa [h1] using Or.inl (hc.mp h1)
    | some b =>
      have hn : ¬(c ≠ 0x30 ∧ c ≠ 0x31) := fun h => by rw [hc.mpr h] at h1; cases h1
      cases h2 : parseSymbols cs with
      | none => simpa using Or.inr (ih.mp h2)
      | some bs =>
        have h3 : ¬∃ c ∈ cs, c ≠ 0x30 ∧ c ≠ 0x31 := fun h => by rw [ih.mpr h] at h2; cases h2
        simp only [List.mem_cons, reduceCtorEq, false_iff]
        rintro ⟨x, rfl | hx, hne⟩
        · exact hn hne
        · exact h3 ⟨x, hx, hne⟩

theorem setLsb_lsb (r : Byte) (b : Bool) : (setLsb r b).getLsbD 0 = b := by
  cases b <;> simp [setLsb]

theorem setLsb_high (r : Byte) (b : Bool) (i : Nat) (h : 1 ≤ i) : (setLsb r b).getLsbD i = r.getLsbD i := by
  rcases Nat.lt_or_ge i 8 with hi | hi
  · interval_cases i <;> cases b <;> simp [setLsb]
  · rw [BitVec.getLsbD_of_ge _ _ hi, BitVec.getLsbD_of_ge _ _ hi]

@[simp] theorem setLsb_setLsb (r : Byte) (b b' : Bool) : setLsb (setLsb r b) b' = setLsb r b' := by
  refine BitVec.eq_of_getLsbD_eq fun i _ => ?_
  rcases Nat.eq_zero_or_pos i with rfl | hi
  · rw [setLsb_lsb, setLsb_lsb]
  · simp [setLsb_high _ _ _ hi]

@[simp] theorem embedStream_length (t : List Byte) : (embedStream t).length = 16 + 8 * t.length := by
  simp [embedStream]

/-- The first 16 stream bits are the header (41_steganographer.md R111, R114). -/
theorem embedStream_header (t : List Byte) (k : Nat) (h : k < 16) :
    (embedStream t)[k]? = some ((8 * t.length).testBit (15 - k)) := by
  rw [embedStream, List.getElem?_append_left (by simpa using h), bin_getElem? _ h]

/-- Stream bit 16 + 8j + i is bit 7 - i of character j (41_steganographer.md R110, 40_bitcodec.md R90). -/
theorem embedStream_payload (t : List Byte) (j i : Nat) (hj : j < t.length) (hi : i < 8) :
    (embedStream t)[16 + (8 * j + i)]? = some (t[j].getLsbD (7 - i)) := by
  rw [embedStream, List.getElem?_append_right (by simp), bin_length,
    show 16 + (8 * j + i) - 16 = 8 * j + i by omega, bitEncode_getElem? t j i hj hi]

end Sys2Proof.Machine
end

