-- ==== Sys2Proof/Laws/Memory.lean ====
section
/-! SUPPORT. The laws of the buffer memory: a read after a write, and the canonical form, which every write keeps and
which makes equal memories equal data. -/

namespace Sys2Proof.Machine

@[simp] theorem Memory.read_nil (a : Nat) : Memory.read [] a = unlistedByte := rfl

theorem Memory.read_cons (b : Nat) (w : Byte) (m : Memory) (a : Nat) :
    Memory.read ((b, w) :: m) a = if a = b then w else Memory.read m a := rfl

/-- A byte below the canonical form's lower bound is not listed. -/
theorem Memory.read_below {lo a : Nat} {m : Memory} (h : Memory.wfFrom lo m = true) (ha : a < lo) :
    Memory.read m a = unlistedByte := by
  induction m generalizing lo with
  | nil => rfl
  | cons c m ih =>
    obtain ⟨b, w⟩ := c
    simp only [Memory.wfFrom, Bool.and_eq_true, decide_eq_true_eq] at h
    rw [Memory.read_cons, if_neg (by omega), ih h.2 (by omega)]

theorem Memory.wfFrom_mono {lo lo' : Nat} {m : Memory} (h : Memory.wfFrom lo m = true) (hl : lo' ≤ lo) :
    Memory.wfFrom lo' m = true := by
  cases m with
  | nil => rfl
  | cons c m =>
    simp only [Memory.wfFrom, Bool.and_eq_true, decide_eq_true_eq] at h ⊢
    exact ⟨⟨by omega, h.1.2⟩, h.2⟩

/-- A write leaves every other byte alone. -/
theorem Memory.read_write_other {m : Memory} {a x : Nat} (v : Byte) (h : x ≠ a) :
    Memory.read (Memory.write m a v) x = Memory.read m x := by
  induction m with
  | nil =>
    simp only [Memory.write, Memory.put]
    split <;> simp [Memory.read, h]
  | cons c m ih =>
    obtain ⟨b, w⟩ := c
    simp only [Memory.write, Memory.put]
    split
    · split <;> simp [Memory.read_cons, h]
    · split
      · split <;> simp_all [Memory.read_cons]
      · simp [Memory.read_cons, ih]

/-- A byte that an unlisted byte does not read as is read back from any memory. -/
theorem Memory.read_write_ne {m : Memory} {a : Nat} {v : Byte} (hv : v ≠ unlistedByte) :
    Memory.read (Memory.write m a v) a = v := by
  induction m with
  | nil => simp [Memory.write, Memory.put, hv, Memory.read_cons]
  | cons c m ih =>
    obtain ⟨b, w⟩ := c
    simp only [Memory.write, Memory.put, hv, if_false]
    split
    · simp [Memory.read_cons]
    · split
      · simp [Memory.read_cons]
      · rw [Memory.read_cons, if_neg ‹_›, ih]

/-- A write is read back from a memory in canonical form. -/
theorem Memory.read_write_self {m : Memory} {lo a : Nat} (v : Byte) (h : Memory.wfFrom lo m = true) :
    Memory.read (Memory.write m a v) a = v := by
  induction m generalizing lo with
  | nil =>
    simp only [Memory.write, Memory.put]
    split <;> simp_all [Memory.read_cons]
  | cons c m ih =>
    obtain ⟨b, w⟩ := c
    have h0 := h
    simp only [Memory.wfFrom, Bool.and_eq_true, decide_eq_true_eq] at h
    simp only [Memory.write, Memory.put]
    split
    · split
      · subst_vars
        rw [Memory.read_cons, if_neg (by omega), Memory.read_below h.2 (by omega)]
      · simp [Memory.read_cons]
    · split
      · split
        · subst_vars
          exact Memory.read_below h.2 (by omega)
        · simp [Memory.read_cons]
      · rw [Memory.read_cons, if_neg ‹_›, ih h.2]

/-- What every byte reads as after a write to a memory in canonical form. -/
theorem Memory.read_write {m : Memory} (a : Nat) (v : Byte) (x : Nat) (h : Memory.wf m = true) :
    Memory.read (Memory.write m a v) x = if x = a then v else Memory.read m x := by
  split
  · subst_vars
    exact Memory.read_write_self v h
  · exact Memory.read_write_other v ‹_›

theorem Memory.wfFrom_put {lo a : Nat} {m : Memory} (v : Byte) (hl : lo ≤ a)
    (h : Memory.wfFrom (a + 1) m = true) : Memory.wfFrom lo (Memory.put a v m) = true := by
  unfold Memory.put
  split
  · exact Memory.wfFrom_mono h (by omega)
  · simp [Memory.wfFrom, hl, h, ‹¬v = unlistedByte›]

theorem Memory.wfFrom_write {lo a : Nat} {m : Memory} (v : Byte) (hl : lo ≤ a)
    (h : Memory.wfFrom lo m = true) : Memory.wfFrom lo (Memory.write m a v) = true := by
  induction m generalizing lo with
  | nil => exact Memory.wfFrom_put v hl rfl
  | cons c m ih =>
    obtain ⟨b, w⟩ := c
    have h0 := h
    simp only [Memory.wfFrom, Bool.and_eq_true, decide_eq_true_eq] at h
    simp only [Memory.write]
    split
    · refine Memory.wfFrom_put v hl ?_
      simp only [Memory.wfFrom, Bool.and_eq_true, decide_eq_true_eq]
      exact ⟨⟨by omega, h.1.2⟩, h.2⟩
    · split
      · subst_vars
        exact Memory.wfFrom_put v hl h.2
      · simp only [Memory.wfFrom, Bool.and_eq_true, decide_eq_true_eq]
        exact ⟨h.1, ih (by omega) h.2⟩

/-- A write keeps the canonical form. -/
theorem Memory.wf_write {m : Memory} (a : Nat) (v : Byte) (h : Memory.wf m = true) :
    Memory.wf (Memory.write m a v) = true :=
  Memory.wfFrom_write v (Nat.zero_le a) h

@[simp] theorem Memory.wf_nil : Memory.wf [] = true := rfl

@[simp] theorem Memory.below_nil (n : Nat) : Memory.below n [] = true := rfl

theorem Memory.below_cons (n b : Nat) (w : Byte) (m : Memory) :
    Memory.below n ((b, w) :: m) = (decide (b < n) && Memory.below n m) := rfl

theorem Memory.below_put {n a : Nat} {m : Memory} (v : Byte) (ha : a < n) (h : Memory.below n m = true) :
    Memory.below n (Memory.put a v m) = true := by
  unfold Memory.put
  split <;> simp [Memory.below_cons, ha, h]

/-- A write below a bound keeps every listed byte below it. -/
theorem Memory.below_write {n a : Nat} {m : Memory} (v : Byte) (ha : a < n) (h : Memory.below n m = true) :
    Memory.below n (Memory.write m a v) = true := by
  induction m with
  | nil => exact Memory.below_put v ha h
  | cons c m ih =>
    obtain ⟨b, w⟩ := c
    have h0 := h
    rw [Memory.below_cons, Bool.and_eq_true] at h
    simp only [Memory.write]
    split
    · exact Memory.below_put v ha h0
    · split
      · exact Memory.below_put v ha h.2
      · rw [Memory.below_cons, Bool.and_eq_true]
        exact ⟨h.1, ih h.2⟩

/-- A byte at or above the bound of a memory is not listed. -/
theorem Memory.read_above {n a : Nat} {m : Memory} (h : Memory.below n m = true) (ha : n ≤ a) :
    Memory.read m a = unlistedByte := by
  induction m with
  | nil => rfl
  | cons c m ih =>
    obtain ⟨b, w⟩ := c
    rw [Memory.below_cons, Bool.and_eq_true, decide_eq_true_eq] at h
    rw [Memory.read_cons, if_neg (by omega), ih h.2]

theorem Memory.ext_from {lo : Nat} {m m' : Memory} (h : Memory.wfFrom lo m = true)
    (h' : Memory.wfFrom lo m' = true) (hr : ∀ a, Memory.read m a = Memory.read m' a) : m = m' := by
  induction m generalizing lo m' with
  | nil =>
    cases m' with
    | nil => rfl
    | cons c m' =>
      obtain ⟨b, w⟩ := c
      have hb := hr b
      simp only [Memory.wfFrom, Bool.and_eq_true, decide_eq_true_eq, bne_iff_ne] at h'
      rw [Memory.read_cons, if_pos rfl, Memory.read_nil] at hb
      exact absurd hb.symm h'.1.2
  | cons c m ih =>
    obtain ⟨b, w⟩ := c
    cases m' with
    | nil =>
      have hb := hr b
      simp only [Memory.wfFrom, Bool.and_eq_true, decide_eq_true_eq, bne_iff_ne] at h
      rw [Memory.read_cons, if_pos rfl, Memory.read_nil] at hb
      exact absurd hb h.1.2
    | cons c' m' =>
      obtain ⟨b', w'⟩ := c'
      simp only [Memory.wfFrom, Bool.and_eq_true, decide_eq_true_eq, bne_iff_ne] at h h'
      have hbb : b = b' := by
        rcases Nat.lt_trichotomy b b' with hlt | heq | hgt
        · have hb := hr b
          rw [Memory.read_cons, if_pos rfl, Memory.read_cons, if_neg (by omega),
            Memory.read_below h'.2 (by omega)] at hb
          exact absurd hb h.1.2
        · exact heq
        · have hb := hr b'
          rw [Memory.read_cons, if_neg (by omega), Memory.read_cons, if_pos rfl,
            Memory.read_below h.2 (by omega)] at hb
          exact absurd hb.symm h'.1.2
      subst hbb
      have hw : w = w' := by simpa [Memory.read_cons] using hr b
      subst hw
      refine congrArg _ (ih h.2 h'.2 fun a => ?_)
      have ha := hr a
      by_cases hab : a = b
      · subst hab
        rw [Memory.read_below h.2 (by omega), Memory.read_below h'.2 (by omega)]
      · simpa [Memory.read_cons, hab] using ha

/-- Memories in canonical form that read alike are equal. -/
theorem Memory.ext {m m' : Memory} (h : Memory.wf m = true) (h' : Memory.wf m' = true)
    (hr : ∀ a, Memory.read m a = Memory.read m' a) : m = m' :=
  Memory.ext_from h h' hr

end Sys2Proof.Machine
end

