-- ==== Sys2Proof/Laws/State.lean ====
section
/-! SUPPORT. One lemma per field per update of State, so that no proof unfolds a record update. -/

namespace Sys2Proof.Machine

/-! ### memWrite -/

@[simp] theorem memWrite_params (s : State) (a : Nat) (v : Byte) : (memWrite s a v).params = s.params := rfl
@[simp] theorem memWrite_ctrl (s : State) (a : Nat) (v : Byte) : (memWrite s a v).ctrl = s.ctrl := rfl
@[simp] theorem memWrite_cmd (s : State) (a : Nat) (v : Byte) : (memWrite s a v).cmd = s.cmd := rfl
@[simp] theorem memWrite_status (s : State) (a : Nat) (v : Byte) : (memWrite s a v).status = s.status := rfl
@[simp] theorem memWrite_operands (s : State) (a : Nat) (v : Byte) : (memWrite s a v).operands = s.operands := rfl
@[simp] theorem memWrite_results (s : State) (a : Nat) (v : Byte) : (memWrite s a v).results = s.results := rfl
@[simp] theorem memWrite_mem (s : State) (a : Nat) (v : Byte) : (memWrite s a v).mem = Memory.write s.mem a v := rfl
@[simp] theorem memWrite_env (s : State) (a : Nat) (v : Byte) : (memWrite s a v).env = s.env := rfl

/-! ### setRlen -/

@[simp] theorem setRlen_params (s : State) (n : Nat) : (setRlen s n).params = s.params := rfl
@[simp] theorem setRlen_ctrl (s : State) (n : Nat) : (setRlen s n).ctrl = s.ctrl := rfl
@[simp] theorem setRlen_cmd (s : State) (n : Nat) : (setRlen s n).cmd = s.cmd := rfl
@[simp] theorem setRlen_status (s : State) (n : Nat) : (setRlen s n).status = s.status := rfl
@[simp] theorem setRlen_operands (s : State) (n : Nat) : (setRlen s n).operands = s.operands := rfl
@[simp] theorem setRlen_results (s : State) (n : Nat) :
    (setRlen s n).results = { s.results with rlen := BitVec.ofNat 32 n } := rfl
@[simp] theorem setRlen_mem (s : State) (n : Nat) : (setRlen s n).mem = s.mem := rfl
@[simp] theorem setRlen_env (s : State) (n : Nat) : (setRlen s n).env = s.env := rfl

/-! ### setHdr -/

@[simp] theorem setHdr_params (s : State) (n : Nat) : (setHdr s n).params = s.params := rfl
@[simp] theorem setHdr_ctrl (s : State) (n : Nat) : (setHdr s n).ctrl = s.ctrl := rfl
@[simp] theorem setHdr_cmd (s : State) (n : Nat) : (setHdr s n).cmd = s.cmd := rfl
@[simp] theorem setHdr_status (s : State) (n : Nat) : (setHdr s n).status = s.status := rfl
@[simp] theorem setHdr_operands (s : State) (n : Nat) : (setHdr s n).operands = s.operands := rfl
@[simp] theorem setHdr_results (s : State) (n : Nat) :
    (setHdr s n).results = { s.results with hdr := BitVec.ofNat 16 n } := rfl
@[simp] theorem setHdr_mem (s : State) (n : Nat) : (setHdr s n).mem = s.mem := rfl
@[simp] theorem setHdr_env (s : State) (n : Nat) : (setHdr s n).env = s.env := rfl

/-! ### setBitcnt -/

@[simp] theorem setBitcnt_params (s : State) (n : Nat) : (setBitcnt s n).params = s.params := rfl
@[simp] theorem setBitcnt_ctrl (s : State) (n : Nat) : (setBitcnt s n).ctrl = s.ctrl := rfl
@[simp] theorem setBitcnt_cmd (s : State) (n : Nat) : (setBitcnt s n).cmd = s.cmd := rfl
@[simp] theorem setBitcnt_status (s : State) (n : Nat) : (setBitcnt s n).status = s.status := rfl
@[simp] theorem setBitcnt_operands (s : State) (n : Nat) : (setBitcnt s n).operands = s.operands := rfl
@[simp] theorem setBitcnt_results (s : State) (n : Nat) :
    (setBitcnt s n).results = { s.results with bitcnt := BitVec.ofNat 32 n } := rfl
@[simp] theorem setBitcnt_mem (s : State) (n : Nat) : (setBitcnt s n).mem = s.mem := rfl
@[simp] theorem setBitcnt_env (s : State) (n : Nat) : (setBitcnt s n).env = s.env := rfl

/-! ### raise -/

@[simp] theorem raise_params (e : ErrCode) (s : State) : (raise e s).params = s.params := rfl
@[simp] theorem raise_ctrl (e : ErrCode) (s : State) : (raise e s).ctrl = s.ctrl := rfl
@[simp] theorem raise_cmd (e : ErrCode) (s : State) : (raise e s).cmd = s.cmd := rfl
@[simp] theorem raise_status (e : ErrCode) (s : State) : (raise e s).status = { s.status with errcode := e } := rfl
@[simp] theorem raise_operands (e : ErrCode) (s : State) : (raise e s).operands = s.operands := rfl
@[simp] theorem raise_results (e : ErrCode) (s : State) : (raise e s).results = s.results := rfl
@[simp] theorem raise_mem (e : ErrCode) (s : State) : (raise e s).mem = s.mem := rfl
@[simp] theorem raise_env (e : ErrCode) (s : State) : (raise e s).env = s.env := rfl

/-! ### startCommand -/

@[simp] theorem startCommand_params (v : Word) (s : State) : (startCommand v s).params = s.params := rfl
@[simp] theorem startCommand_ctrl (v : Word) (s : State) : (startCommand v s).ctrl = s.ctrl := rfl
@[simp] theorem startCommand_cmd (v : Word) (s : State) : (startCommand v s).cmd = v := rfl
@[simp] theorem startCommand_status (v : Word) (s : State) :
    (startCommand v s).status = { s.status with busy := true, done := false, errcode := .none } := rfl
@[simp] theorem startCommand_operands (v : Word) (s : State) : (startCommand v s).operands = s.operands := rfl
@[simp] theorem startCommand_results (v : Word) (s : State) : (startCommand v s).results = .zero := rfl
@[simp] theorem startCommand_mem (v : Word) (s : State) : (startCommand v s).mem = s.mem := rfl
@[simp] theorem startCommand_env (v : Word) (s : State) : (startCommand v s).env = s.env := rfl

/-! ### finish -/

@[simp] theorem finish_params (s : State) : (finish s).params = s.params := rfl
@[simp] theorem finish_ctrl (s : State) : (finish s).ctrl = s.ctrl := rfl
@[simp] theorem finish_cmd (s : State) : (finish s).cmd = s.cmd := rfl
@[simp] theorem finish_status (s : State) : (finish s).status = { s.status with busy := false, done := true } := rfl
@[simp] theorem finish_operands (s : State) : (finish s).operands = s.operands := rfl
@[simp] theorem finish_results (s : State) : (finish s).results = s.results := rfl
@[simp] theorem finish_mem (s : State) : (finish s).mem = s.mem := rfl
@[simp] theorem finish_env (s : State) : (finish s).env = s.env := rfl

/-! ### ackStatus -/

@[simp] theorem ackStatus_params (v : Word) (s : State) : (ackStatus v s).params = s.params := rfl
@[simp] theorem ackStatus_ctrl (v : Word) (s : State) : (ackStatus v s).ctrl = s.ctrl := rfl
@[simp] theorem ackStatus_cmd (v : Word) (s : State) : (ackStatus v s).cmd = s.cmd := rfl
@[simp] theorem ackStatus_status (v : Word) (s : State) :
    (ackStatus v s).status = { s.status with
      done := s.status.done && !v.getLsbD 1, haz := s.status.haz && !v.getLsbD 2 } := rfl
@[simp] theorem ackStatus_operands (v : Word) (s : State) : (ackStatus v s).operands = s.operands := rfl
@[simp] theorem ackStatus_results (v : Word) (s : State) : (ackStatus v s).results = s.results := rfl
@[simp] theorem ackStatus_mem (v : Word) (s : State) : (ackStatus v s).mem = s.mem := rfl
@[simp] theorem ackStatus_env (v : Word) (s : State) : (ackStatus v s).env = s.env := rfl

/-! ### setHaz -/

@[simp] theorem setHaz_params (s : State) : (setHaz s).params = s.params := rfl
@[simp] theorem setHaz_ctrl (s : State) : (setHaz s).ctrl = s.ctrl := rfl
@[simp] theorem setHaz_cmd (s : State) : (setHaz s).cmd = s.cmd := rfl
@[simp] theorem setHaz_status (s : State) : (setHaz s).status = { s.status with haz := true } := rfl
@[simp] theorem setHaz_operands (s : State) : (setHaz s).operands = s.operands := rfl
@[simp] theorem setHaz_results (s : State) : (setHaz s).results = s.results := rfl
@[simp] theorem setHaz_mem (s : State) : (setHaz s).mem = s.mem := rfl
@[simp] theorem setHaz_env (s : State) : (setHaz s).env = s.env := rfl

/-! ### clearRegisters -/

@[simp] theorem clearRegisters_params (s : State) : (clearRegisters s).params = s.params := rfl
@[simp] theorem clearRegisters_ctrl (s : State) : (clearRegisters s).ctrl = .zero := rfl
@[simp] theorem clearRegisters_cmd (s : State) : (clearRegisters s).cmd = 0 := rfl
@[simp] theorem clearRegisters_status (s : State) : (clearRegisters s).status = .zero := rfl
@[simp] theorem clearRegisters_operands (s : State) : (clearRegisters s).operands = .zero := rfl
@[simp] theorem clearRegisters_results (s : State) : (clearRegisters s).results = .zero := rfl
@[simp] theorem clearRegisters_mem (s : State) : (clearRegisters s).mem = s.mem := rfl
@[simp] theorem clearRegisters_env (s : State) : (clearRegisters s).env = s.env := rfl

/-! ### record -/

@[simp] theorem record_params (t : Transaction) (r : Response) (s : State) : (record t r s).params = s.params := rfl
@[simp] theorem record_ctrl (t : Transaction) (r : Response) (s : State) : (record t r s).ctrl = s.ctrl := rfl
@[simp] theorem record_cmd (t : Transaction) (r : Response) (s : State) : (record t r s).cmd = s.cmd := rfl
@[simp] theorem record_status (t : Transaction) (r : Response) (s : State) : (record t r s).status = s.status := rfl
@[simp] theorem record_operands (t : Transaction) (r : Response) (s : State) :
    (record t r s).operands = s.operands := rfl
@[simp] theorem record_results (t : Transaction) (r : Response) (s : State) :
    (record t r s).results = s.results := rfl
@[simp] theorem record_mem (t : Transaction) (r : Response) (s : State) : (record t r s).mem = s.mem := rfl
@[simp] theorem record_env (t : Transaction) (r : Response) (s : State) :
    (record t r s).env = { s.env with history := (t, r) :: s.env.history } := rfl

/-! ### withScript -/

@[simp] theorem State.withScript_params (s : State) (ts : List Turn) : (s.withScript ts).params = s.params := rfl
@[simp] theorem State.withScript_ctrl (s : State) (ts : List Turn) : (s.withScript ts).ctrl = s.ctrl := rfl
@[simp] theorem State.withScript_cmd (s : State) (ts : List Turn) : (s.withScript ts).cmd = s.cmd := rfl
@[simp] theorem State.withScript_status (s : State) (ts : List Turn) : (s.withScript ts).status = s.status := rfl
@[simp] theorem State.withScript_operands (s : State) (ts : List Turn) :
    (s.withScript ts).operands = s.operands := rfl
@[simp] theorem State.withScript_results (s : State) (ts : List Turn) : (s.withScript ts).results = s.results := rfl
@[simp] theorem State.withScript_mem (s : State) (ts : List Turn) : (s.withScript ts).mem = s.mem := rfl
@[simp] theorem State.withScript_env (s : State) (ts : List Turn) :
    (s.withScript ts).env = { s.env with script := ts } := rfl

/-! ### complete, power-on and reset -/

@[simp] theorem complete_eq (s : State) : complete s = s := rfl
@[simp] theorem State.powerOn_params (p : Config.Params) (init : Memory) :
    (State.powerOn p init).params = p := rfl
@[simp] theorem State.powerOn_ctrl (p : Config.Params) (init : Memory) :
    (State.powerOn p init).ctrl = .zero := rfl
@[simp] theorem State.powerOn_cmd (p : Config.Params) (init : Memory) :
    (State.powerOn p init).cmd = 0 := rfl
@[simp] theorem State.powerOn_status (p : Config.Params) (init : Memory) :
    (State.powerOn p init).status = .zero := rfl
@[simp] theorem State.powerOn_operands (p : Config.Params) (init : Memory) :
    (State.powerOn p init).operands = .zero := rfl
@[simp] theorem State.powerOn_results (p : Config.Params) (init : Memory) :
    (State.powerOn p init).results = .zero := rfl
@[simp] theorem State.powerOn_mem (p : Config.Params) (init : Memory) :
    (State.powerOn p init).mem = init := rfl
@[simp] theorem State.powerOn_env (p : Config.Params) (init : Memory) :
    (State.powerOn p init).env = .start := rfl

end Sys2Proof.Machine
end

