-- ==== Sys2Proof/Laws/Ops.lean ====
section
/-! SUPPORT. One lemma for each thing a shared operation can do: the region checks, runs of reads, runs of writes, and the
free bytes of a reset. -/

namespace Sys2Proof.Machine

/-! ### The region checks -/

theorem inRange_iff {s : State} {b n : Nat} : inRange s b n = true ↔ n = 0 ∨ b + n ≤ s.params.memBytes := by
  simp [inRange]

theorem disjoint_iff {b1 n1 b2 n2 : Nat} :
    disjoint b1 n1 b2 n2 = true ↔ n1 = 0 ∨ n2 = 0 ∨ b1 + n1 ≤ b2 ∨ b2 + n2 ≤ b1 := by
  simp [disjoint, or_assoc]

/-! ### One byte -/

theorem memRead_memWrite_other {s : State} {a x : Nat} (v : Byte) (h : x ≠ a) :
    memRead (memWrite s a v) x = memRead s x := Memory.read_write_other v h

theorem memRead_memWrite_self {s : State} (a : Nat) (v : Byte) (h : Memory.wf s.mem = true) :
    memRead (memWrite s a v) a = v := Memory.read_write_self v h

theorem memRead_congr {s s' : State} (h : s.mem = s'.mem) (a : Nat) : memRead s a = memRead s' a := by
  unfold memRead; rw [h]

/-! ### Runs of writes leave everything but memory alone -/

@[simp] theorem writeBytes_params (s : State) (b : Nat) (vs : List Byte) :
    (writeBytes s b vs).params = s.params := by
  induction vs generalizing s b with
  | nil => rfl
  | cons v vs ih => rw [writeBytes, ih, memWrite_params]

@[simp] theorem writeBytes_ctrl (s : State) (b : Nat) (vs : List Byte) :
    (writeBytes s b vs).ctrl = s.ctrl := by
  induction vs generalizing s b with
  | nil => rfl
  | cons v vs ih => rw [writeBytes, ih, memWrite_ctrl]

@[simp] theorem writeBytes_cmd (s : State) (b : Nat) (vs : List Byte) :
    (writeBytes s b vs).cmd = s.cmd := by
  induction vs generalizing s b with
  | nil => rfl
  | cons v vs ih => rw [writeBytes, ih, memWrite_cmd]

@[simp] theorem writeBytes_status (s : State) (b : Nat) (vs : List Byte) :
    (writeBytes s b vs).status = s.status := by
  induction vs generalizing s b with
  | nil => rfl
  | cons v vs ih => rw [writeBytes, ih, memWrite_status]

@[simp] theorem writeBytes_operands (s : State) (b : Nat) (vs : List Byte) :
    (writeBytes s b vs).operands = s.operands := by
  induction vs generalizing s b with
  | nil => rfl
  | cons v vs ih => rw [writeBytes, ih, memWrite_operands]

@[simp] theorem writeBytes_results (s : State) (b : Nat) (vs : List Byte) :
    (writeBytes s b vs).results = s.results := by
  induction vs generalizing s b with
  | nil => rfl
  | cons v vs ih => rw [writeBytes, ih, memWrite_results]

@[simp] theorem writeBytes_env (s : State) (b : Nat) (vs : List Byte) :
    (writeBytes s b vs).env = s.env := by
  induction vs generalizing s b with
  | nil => rfl
  | cons v vs ih => rw [writeBytes, ih, memWrite_env]

@[simp] theorem writeLsbs_params (s : State) (g k : Nat) (bs : Bits) :
    (writeLsbs s g k bs).params = s.params := by
  induction bs generalizing s k with
  | nil => rfl
  | cons v vs ih => rw [writeLsbs, ih, memWrite_params]

@[simp] theorem writeLsbs_ctrl (s : State) (g k : Nat) (bs : Bits) :
    (writeLsbs s g k bs).ctrl = s.ctrl := by
  induction bs generalizing s k with
  | nil => rfl
  | cons v vs ih => rw [writeLsbs, ih, memWrite_ctrl]

@[simp] theorem writeLsbs_cmd (s : State) (g k : Nat) (bs : Bits) :
    (writeLsbs s g k bs).cmd = s.cmd := by
  induction bs generalizing s k with
  | nil => rfl
  | cons v vs ih => rw [writeLsbs, ih, memWrite_cmd]

@[simp] theorem writeLsbs_status (s : State) (g k : Nat) (bs : Bits) :
    (writeLsbs s g k bs).status = s.status := by
  induction bs generalizing s k with
  | nil => rfl
  | cons v vs ih => rw [writeLsbs, ih, memWrite_status]

@[simp] theorem writeLsbs_operands (s : State) (g k : Nat) (bs : Bits) :
    (writeLsbs s g k bs).operands = s.operands := by
  induction bs generalizing s k with
  | nil => rfl
  | cons v vs ih => rw [writeLsbs, ih, memWrite_operands]

@[simp] theorem writeLsbs_results (s : State) (g k : Nat) (bs : Bits) :
    (writeLsbs s g k bs).results = s.results := by
  induction bs generalizing s k with
  | nil => rfl
  | cons v vs ih => rw [writeLsbs, ih, memWrite_results]

@[simp] theorem writeLsbs_env (s : State) (g k : Nat) (bs : Bits) :
    (writeLsbs s g k bs).env = s.env := by
  induction bs generalizing s k with
  | nil => rfl
  | cons v vs ih => rw [writeLsbs, ih, memWrite_env]

@[simp] theorem drawBytes_params (s : State) (as : List Nat) : (drawBytes s as).params = s.params := by
  induction as generalizing s with
  | nil => rfl
  | cons a as ih => rw [drawBytes, ih]; rfl

@[simp] theorem drawBytes_ctrl (s : State) (as : List Nat) : (drawBytes s as).ctrl = s.ctrl := by
  induction as generalizing s with
  | nil => rfl
  | cons a as ih => rw [drawBytes, ih]; rfl

@[simp] theorem drawBytes_cmd (s : State) (as : List Nat) : (drawBytes s as).cmd = s.cmd := by
  induction as generalizing s with
  | nil => rfl
  | cons a as ih => rw [drawBytes, ih]; rfl

@[simp] theorem drawBytes_status (s : State) (as : List Nat) : (drawBytes s as).status = s.status := by
  induction as generalizing s with
  | nil => rfl
  | cons a as ih => rw [drawBytes, ih]; rfl

@[simp] theorem drawBytes_operands (s : State) (as : List Nat) : (drawBytes s as).operands = s.operands := by
  induction as generalizing s with
  | nil => rfl
  | cons a as ih => rw [drawBytes, ih]; rfl

@[simp] theorem drawBytes_results (s : State) (as : List Nat) : (drawBytes s as).results = s.results := by
  induction as generalizing s with
  | nil => rfl
  | cons a as ih => rw [drawBytes, ih]; rfl

/-- Drawing free bytes counts them and leaves the rest of the environment alone. -/
theorem drawBytes_env (s : State) (as : List Nat) :
    (drawBytes s as).env = { s.env with draws := s.env.draws + as.length } := by
  induction as generalizing s with
  | nil => rfl
  | cons a as ih =>
    rw [drawBytes, ih]
    simp [Nat.add_assoc, Nat.add_comm 1]

/-! ### What a run of writes leaves in memory -/

theorem memRead_writeBytes_outside {s : State} {b x : Nat} {vs : List Byte} (h : x < b ∨ b + vs.length ≤ x) :
    memRead (writeBytes s b vs) x = memRead s x := by
  induction vs generalizing s b with
  | nil => rfl
  | cons v vs ih =>
    rw [List.length_cons] at h
    rw [writeBytes, ih (by omega), memRead_memWrite_other v (by omega)]

theorem writeBytes_wf {s : State} (b : Nat) (vs : List Byte) (h : Memory.wf s.mem = true) :
    Memory.wf (writeBytes s b vs).mem = true := by
  induction vs generalizing s b with
  | nil => exact h
  | cons v vs ih => exact ih _ (Memory.wf_write b v h)

theorem writeBytes_below {s : State} {n b : Nat} {vs : List Byte} (hb : b + vs.length ≤ n ∨ vs.length = 0)
    (h : Memory.below n s.mem = true) : Memory.below n (writeBytes s b vs).mem = true := by
  induction vs generalizing s b with
  | nil => exact h
  | cons v vs ih =>
    rw [List.length_cons] at hb
    exact ih (by omega) (Memory.below_write v (by omega) h)

theorem memRead_writeBytes {s : State} {b i : Nat} {vs : List Byte} (hw : Memory.wf s.mem = true)
    (h : i < vs.length) : memRead (writeBytes s b vs) (b + i) = vs[i] := by
  induction vs generalizing s b i with
  | nil => simp at h
  | cons v vs ih =>
    rw [writeBytes]
    cases i with
    | zero => rw [memRead_writeBytes_outside (by omega)]; exact memRead_memWrite_self b v hw
    | succ i =>
      rw [show b + (i + 1) = b + 1 + i by omega, ih (Memory.wf_write b v hw) (by simpa using h)]
      rfl

/-- A run of writes of bytes that no unlisted byte reads as is read back from any memory. -/
theorem memRead_writeBytes_ne {s : State} {b i : Nat} {vs : List Byte} (hv : ∀ v ∈ vs, v ≠ unlistedByte)
    (h : i < vs.length) : memRead (writeBytes s b vs) (b + i) = vs[i] := by
  induction vs generalizing s b i with
  | nil => simp at h
  | cons v vs ih =>
    rw [writeBytes]
    cases i with
    | zero =>
      rw [memRead_writeBytes_outside (by omega)]
      exact Memory.read_write_ne (hv v (by simp))
    | succ i =>
      rw [show b + (i + 1) = b + 1 + i by omega, ih (fun w hw => hv w (by simp [hw])) (by simpa using h)]
      rfl

theorem memRead_writeLsbs_other {s : State} {g k x : Nat} {bs : Bits}
    (h : ∀ i, i < bs.length → x ≠ red g (k + i)) : memRead (writeLsbs s g k bs) x = memRead s x := by
  induction bs generalizing s k with
  | nil => rfl
  | cons b bs ih =>
    rw [writeLsbs, ih, memRead_memWrite_other (a := red g k) _ (by simpa using h 0 (by simp))]
    intro i hi
    have := h (i + 1) (by simpa using hi)
    rwa [show k + 1 + i = k + (i + 1) by omega]

theorem writeLsbs_wf {s : State} (g k : Nat) (bs : Bits) (h : Memory.wf s.mem = true) :
    Memory.wf (writeLsbs s g k bs).mem = true := by
  induction bs generalizing s k with
  | nil => exact h
  | cons b bs ih => exact ih _ (Memory.wf_write _ _ h)

theorem writeLsbs_below {s : State} {n g k : Nat} {bs : Bits} (hb : ∀ i, i < bs.length → red g (k + i) < n)
    (h : Memory.below n s.mem = true) : Memory.below n (writeLsbs s g k bs).mem = true := by
  induction bs generalizing s k with
  | nil => exact h
  | cons b bs ih =>
    refine ih (fun i hi => ?_) (Memory.below_write _ (hb 0 (by simp)) h)
    have := hb (i + 1) (by simpa using hi)
    rwa [show k + 1 + i = k + (i + 1) by omega]

/-- Each red byte a run of stream bits reaches has its least significant bit replaced. -/
theorem memRead_writeLsbs {s : State} {g k i : Nat} {bs : Bits} (hw : Memory.wf s.mem = true)
    (h : i < bs.length) :
    memRead (writeLsbs s g k bs) (red g (k + i)) = setLsb (memRead s (red g (k + i))) bs[i] := by
  induction bs generalizing s k i with
  | nil => simp at h
  | cons b bs ih =>
    rw [writeLsbs]
    cases i with
    | zero =>
      rw [memRead_writeLsbs_other (by intro i _; unfold red; omega)]
      exact memRead_memWrite_self _ _ hw
    | succ i =>
      rw [show k + (i + 1) = k + 1 + i by omega, ih (Memory.wf_write _ _ hw) (by simpa using h),
        memRead_memWrite_other _ (by unfold red; omega)]
      rfl

theorem drawBytes_wf {s : State} (as : List Nat) (h : Memory.wf s.mem = true) :
    Memory.wf (drawBytes s as).mem = true := by
  induction as generalizing s with
  | nil => exact h
  | cons a as ih => exact ih (Memory.wf_write _ _ h)

theorem drawBytes_below {s : State} {n : Nat} {as : List Nat} (ha : ∀ a ∈ as, a < n)
    (h : Memory.below n s.mem = true) : Memory.below n (drawBytes s as).mem = true := by
  induction as generalizing s with
  | nil => exact h
  | cons a as ih =>
    exact ih (fun x hx => ha x (by simp [hx])) (Memory.below_write _ (ha a (by simp)) h)

/-- A reset draws no byte outside the write set (70_reset_and_hazards.md R172). -/
theorem memRead_drawBytes_other {s : State} {x : Nat} {as : List Nat} (h : x ∉ as) :
    memRead (drawBytes s as) x = memRead s x := by
  induction as generalizing s with
  | nil => rfl
  | cons a as ih =>
    simp only [List.mem_cons, not_or] at h
    rw [drawBytes, ih h.2]
    exact memRead_memWrite_other _ h.1

/-! ### Runs of reads -/

@[simp] theorem readBytes_length (s : State) (b n : Nat) : (readBytes s b n).length = n := by simp [readBytes]

theorem readBytes_getElem (s : State) (b n i : Nat) (h : i < (readBytes s b n).length) :
    (readBytes s b n)[i] = memRead s (b + i) := by simp [readBytes]

theorem readBytes_congr {s s' : State} {b n : Nat} (h : ∀ j, j < n → memRead s (b + j) = memRead s' (b + j)) :
    readBytes s b n = readBytes s' b n := by
  refine List.map_congr_left fun j hj => h j ?_
  simpa using hj

@[simp] theorem readLsbs_length (s : State) (g k n : Nat) : (readLsbs s g k n).length = n := by simp [readLsbs]

theorem readLsbs_getElem? {s : State} {g k n i : Nat} (h : i < n) :
    (readLsbs s g k n)[i]? = some ((memRead s (red g (k + i))).getLsbD 0) := by
  simp [readLsbs, h]

theorem readLsbs_congr {s s' : State} {g k n : Nat}
    (h : ∀ i, i < n → (memRead s (red g (k + i))).getLsbD 0 = (memRead s' (red g (k + i))).getLsbD 0) :
    readLsbs s g k n = readLsbs s' g k n := by
  refine List.map_congr_left fun j hj => h j ?_
  simpa using hj

/-- The header value fits 16 bits (41_steganographer.md R120: 0 to 65535). -/
theorem headerValue_lt (s : State) : headerValue s < 65536 := by
  have := val_lt (readLsbs s (gridAddr s) 0 16)
  rwa [readLsbs_length] at this

theorem pixelCount_le (s : State) : pixelCount s ≤ 65535 * 65535 := by
  have h1 := s.operands.gw.isLt
  have h2 := s.operands.gh.isLt
  exact Nat.mul_le_mul (by unfold gridWidth; omega) (by unfold gridHeight; omega)

@[simp] theorem sourceBytes_length (s : State) : (sourceBytes s).length = srcLen s := readBytes_length _ _ _

end Sys2Proof.Machine
end

