-- ==== Sys2Proof/Laws/Commands.lean ====
section
/-! SUPPORT. What each command can do, said once: every way Execute can end (30_encoding.md R72), with the checks that led
there. Later proofs cite these and do not unfold a meaning. -/

namespace Sys2Proof.Machine

/-- BENC's ends (40_bitcodec.md R91). -/
theorem execBenc_cases {s t : State} (h : execBenc s = .next t) :
    ((inRange s (srcAddr s) (srcLen s) = false ∨ inRange s (dstAddr s) (8 * srcLen s) = false) ∧
      t = raise .addrErr s) ∨
    (inRange s (srcAddr s) (srcLen s) = true ∧ inRange s (dstAddr s) (8 * srcLen s) = true ∧
      disjoint (srcAddr s) (srcLen s) (dstAddr s) (8 * srcLen s) = false ∧ t = raise .overlapErr s) ∨
    (inRange s (srcAddr s) (srcLen s) = true ∧ inRange s (dstAddr s) (8 * srcLen s) = true ∧
      disjoint (srcAddr s) (srcLen s) (dstAddr s) (8 * srcLen s) = true ∧
      t = setRlen (writeBytes s (dstAddr s) ((bitEncode (sourceBytes s)).map symbol)) (8 * srcLen s)) := by
  simp only [execBenc, complete_eq] at h
  split at h
  · cases h; simp_all
  · split at h <;> cases h <;> simp_all

/-- BDEC's ends (40_bitcodec.md R94). -/
theorem execBdec_cases {s t : State} (h : execBdec s = .next t) :
    ((inRange s (srcAddr s) (srcLen s) = false ∨ inRange s (dstAddr s) (ceil8 (srcLen s)) = false) ∧
      t = raise .addrErr s) ∨
    (inRange s (srcAddr s) (srcLen s) = true ∧ inRange s (dstAddr s) (ceil8 (srcLen s)) = true ∧
      disjoint (srcAddr s) (srcLen s) (dstAddr s) (ceil8 (srcLen s)) = false ∧ t = raise .overlapErr s) ∨
    (inRange s (srcAddr s) (srcLen s) = true ∧ inRange s (dstAddr s) (ceil8 (srcLen s)) = true ∧
      disjoint (srcAddr s) (srcLen s) (dstAddr s) (ceil8 (srcLen s)) = true ∧
      parseSymbols (sourceBytes s) = none ∧ t = raise .decodeErr s) ∨
    (inRange s (srcAddr s) (srcLen s) = true ∧ inRange s (dstAddr s) (ceil8 (srcLen s)) = true ∧
      disjoint (srcAddr s) (srcLen s) (dstAddr s) (ceil8 (srcLen s)) = true ∧
      ∃ digits, parseSymbols (sourceBytes s) = some digits ∧
        t = setRlen (writeBytes s (dstAddr s) (bitDecode digits)) (ceil8 (srcLen s))) := by
  simp only [execBdec, complete_eq] at h
  split at h
  · cases h; simp_all
  · split at h
    · cases h; simp_all
    · split at h <;> cases h <;> simp_all

/-- EMBED's ends (41_steganographer.md R110). -/
theorem execEmbed_cases {s t : State} (h : execEmbed s = .next t) :
    ((inRange s (srcAddr s) (srcLen s) = false ∨ inRange s (gridAddr s) (4 * pixelCount s) = false) ∧
      t = raise .addrErr s) ∨
    (inRange s (srcAddr s) (srcLen s) = true ∧ inRange s (gridAddr s) (4 * pixelCount s) = true ∧
      disjoint (srcAddr s) (srcLen s) (gridAddr s) (4 * pixelCount s) = false ∧ t = raise .overlapErr s) ∨
    (inRange s (srcAddr s) (srcLen s) = true ∧ inRange s (gridAddr s) (4 * pixelCount s) = true ∧
      disjoint (srcAddr s) (srcLen s) (gridAddr s) (4 * pixelCount s) = true ∧
      Config.maxEmbedChars < srcLen s ∧ t = raise .lengthErr s) ∨
    (inRange s (srcAddr s) (srcLen s) = true ∧ inRange s (gridAddr s) (4 * pixelCount s) = true ∧
      disjoint (srcAddr s) (srcLen s) (gridAddr s) (4 * pixelCount s) = true ∧
      srcLen s ≤ Config.maxEmbedChars ∧ pixelCount s < 16 + 8 * srcLen s ∧ s.ctrl.truncEn = false ∧
      t = raise .capacityErr (setHdr s (8 * srcLen s))) ∨
    (inRange s (srcAddr s) (srcLen s) = true ∧ inRange s (gridAddr s) (4 * pixelCount s) = true ∧
      disjoint (srcAddr s) (srcLen s) (gridAddr s) (4 * pixelCount s) = true ∧
      srcLen s ≤ Config.maxEmbedChars ∧ (pixelCount s < 16 + 8 * srcLen s → s.ctrl.truncEn = true) ∧
      t = setBitcnt (writeLsbs (setHdr s (8 * srcLen s)) (gridAddr s) 0
        ((embedStream (sourceBytes s)).take (pixelCount s))) (embedCount s)) := by
  simp only [execEmbed, complete_eq] at h
  split at h
  · cases h; simp_all
  · split at h
    · cases h; simp_all
    · split at h
      · cases h; simp_all
      · split at h <;> cases h <;> simp_all

/-- EXTRACT's ends (41_steganographer.md R120, R121). -/
theorem execExtract_cases {s t : State} (h : execExtract s = .next t) :
    (inRange s (gridAddr s) (4 * pixelCount s) = false ∧ t = raise .addrErr s) ∨
    (inRange s (gridAddr s) (4 * pixelCount s) = true ∧ pixelCount s < 16 ∧
      t = raise .headerErr (setBitcnt s (pixelCount s))) ∨
    (inRange s (gridAddr s) (4 * pixelCount s) = true ∧ 16 ≤ pixelCount s ∧
      pixelCount s - 16 < headerValue s ∧
      t = raise .payloadTrunc (setBitcnt (setHdr s (headerValue s)) (pixelCount s))) ∨
    (inRange s (gridAddr s) (4 * pixelCount s) = true ∧ 16 + headerValue s ≤ pixelCount s ∧
      inRange s (dstAddr s) (ceil8 (headerValue s)) = false ∧
      t = raise .addrErr (setBitcnt (setHdr s (headerValue s)) (16 + headerValue s))) ∨
    (inRange s (gridAddr s) (4 * pixelCount s) = true ∧ 16 + headerValue s ≤ pixelCount s ∧
      inRange s (dstAddr s) (ceil8 (headerValue s)) = true ∧
      disjoint (gridAddr s) (4 * pixelCount s) (dstAddr s) (ceil8 (headerValue s)) = false ∧
      t = raise .overlapErr (setBitcnt (setHdr s (headerValue s)) (16 + headerValue s))) ∨
    (inRange s (gridAddr s) (4 * pixelCount s) = true ∧ 16 + headerValue s ≤ pixelCount s ∧
      inRange s (dstAddr s) (ceil8 (headerValue s)) = true ∧
      disjoint (gridAddr s) (4 * pixelCount s) (dstAddr s) (ceil8 (headerValue s)) = true ∧
      t = setRlen (writeBytes (setBitcnt (setHdr s (headerValue s)) (16 + headerValue s)) (dstAddr s)
        (bitDecode (readLsbs s (gridAddr s) 16 (headerValue s)))) (ceil8 (headerValue s))) := by
  simp only [execExtract, complete_eq] at h
  split at h
  · cases h; simp_all
  · split at h
    · cases h; simp_all
    · split at h
      · cases h; simp_all
      · have hp : 16 + headerValue s ≤ pixelCount s := by omega
        split at h
        · cases h; simp_all
        · split at h <;> cases h <;> simp_all

/-! ### Where each command completes -/

theorem execBenc_next (s : State) : ∃ t, execBenc s = .next t := by
  simp only [execBenc]; split <;> [skip; split] <;> exact ⟨_, rfl⟩

theorem execBdec_next (s : State) : ∃ t, execBdec s = .next t := by
  simp only [execBdec]; split <;> [skip; split <;> [skip; split]] <;> exact ⟨_, rfl⟩

theorem execEmbed_next (s : State) : ∃ t, execEmbed s = .next t := by
  simp only [execEmbed]; split <;> [skip; split <;> [skip; split <;> [skip; split]]] <;> exact ⟨_, rfl⟩

theorem execExtract_next (s : State) : ∃ t, execExtract s = .next t := by
  simp only [execExtract]
  split <;> [skip; split <;> [skip; split <;> [skip; split <;> [skip; split]]]] <;> exact ⟨_, rfl⟩

end Sys2Proof.Machine
end

