-- ==== Sys2Proof/Laws/PerInstr.lean ====
section
/-! SUPPORT. The per-instruction family of LAWS.json: the word of every command is a legal command word with the fields the
opcode map gives it (30_encoding.md R70, R71). -/

namespace Sys2Proof.Laws.EncodesFields

/-- The fields of the command's word are its opcode-map row's, and they are legal. -/
def Statement (i : Instr) : Prop := wordFields (encode i) = i.fields ∧ i.wf = true

theorem benc : Statement .benc := ⟨rfl, rfl⟩

theorem bdec : Statement .bdec := ⟨rfl, rfl⟩

theorem embed : Statement .embed := ⟨rfl, rfl⟩

theorem extract : Statement .extract := ⟨rfl, rfl⟩

end Sys2Proof.Laws.EncodesFields
end

