-- ==== Sys2Proof/Laws/Step.lean ====
section
/-! SUPPORT. What a step can do, said once, and that every step answers a next state. -/

namespace Sys2Proof.Machine

/-! ### Encoding -/

theorem decode_encode (i : Instr) : decode (encode i) = .ok i := by cases i <;> rfl

/-- A command word is its two fields. -/
theorem word_of_fields (w : Word) : w = wordRsv w ++ wordOpc w := by
  unfold wordRsv wordOpc
  refine BitVec.eq_of_getLsbD_eq fun i hi => ?_
  rw [BitVec.getLsbD_append, BitVec.getLsbD_extractLsb', BitVec.getLsbD_extractLsb']
  by_cases h : i < 4
  · simp [h]
  · simp only [h, if_false, show i - 4 < 28 by omega, decide_true, Bool.true_and,
      show 4 + (i - 4) = i by omega]

theorem decodeOpc_ok {opc : BitVec 4} {i : Instr} (h : decodeOpc opc = .ok i) : opc = encodeOpc i := by
  unfold decodeOpc at h
  split at h <;> cases h <;> exact BitVec.eq_of_toNat_eq ‹_›

/-- A word decodes to a command exactly when it is that command's word (30_encoding.md R74). -/
theorem decode_eq_ok {w : Word} {i : Instr} : decode w = .ok i ↔ w = encode i := by
  constructor
  · intro h
    unfold decode at h
    split at h
    · rw [word_of_fields w, ‹wordRsv w = 0›, decodeOpc_ok h]; rfl
    · cases h
  · rintro rfl; exact decode_encode i

/-- Every other word is rejected. -/
theorem decode_error {w : Word} (h : ∀ i, w ≠ encode i) : ∃ r, decode w = .error r := by
  cases hd : decode w with
  | error r => exact ⟨r, rfl⟩
  | ok i => exact absurd (decode_eq_ok.mp hd) (h i)

/-! ### The engine -/

theorem exec_next (i : Instr) (s : State) : ∃ t, exec i s = .next t := by
  cases i
  · exact execBenc_next s
  · exact execBdec_next s
  · exact execEmbed_next s
  · exact execExtract_next s

/-- What Execute(CMD) can do: run the command of the word, or record ILLEGAL_CMD (30_encoding.md R72). -/
theorem execute_cases {s t : State} (h : execute s = .next t) :
    (∃ i, s.cmd = encode i ∧ exec i s = .next t) ∨ ((∀ i, s.cmd ≠ encode i) ∧ t = raise .illegalCmd s) := by
  unfold execute at h
  split at h
  · exact .inl ⟨_, decode_eq_ok.mp ‹_›, h⟩
  · refine .inr ⟨fun i hi => ?_, by cases h; rfl⟩
    have := decode_eq_ok.mpr hi
    simp_all

theorem execute_next (s : State) : ∃ t, execute s = .next t := by
  unfold execute
  split
  · exact exec_next _ s
  · exact ⟨_, rfl⟩

theorem engineStep_cases {s t : State} (h : engineStep s = .next t) : ∃ v, execute s = .next v ∧ t = finish v := by
  obtain ⟨v, hv⟩ := execute_next s
  unfold engineStep at h
  rw [hv] at h
  cases h
  exact ⟨v, hv, rfl⟩

/-- What the engine's turn can do (20_memory.md R60). -/
theorem engineTurn_cases {s t : State} (h : engineTurn s = .next t) :
    (s.status.busy = false ∧ t = s) ∨
    (s.status.busy = true ∧ ∃ v, execute s = .next v ∧ t = finish v) := by
  unfold engineTurn at h
  split at h
  · exact .inr ⟨‹_›, engineStep_cases h⟩
  · rename_i hb
    cases h
    exact .inl ⟨by simpa using hb, rfl⟩

theorem engineTurn_next (s : State) : ∃ t, engineTurn s = .next t := by
  unfold engineTurn
  split
  · obtain ⟨v, hv⟩ := execute_next s
    exact ⟨finish v, by unfold engineStep; rw [hv]; rfl⟩
  · exact ⟨s, rfl⟩

/-! ### The step -/

/-- What a step can do (20_memory.md R63): the engine's turn, with nothing left in the script or by the script; or a
host transaction. -/
theorem step_cases {s t : State} (h : step s = .next t) :
    (∃ u, (s.env.script = [] ∧ u = s ∨ ∃ ts, s.env.script = .engine :: ts ∧ u = s.withScript ts) ∧
      engineTurn u = .next t) ∨
    (∃ tr ts, s.env.script = .host tr :: ts ∧ t = hostTurn tr (s.withScript ts)) := by
  unfold step at h
  split at h
  · exact .inl ⟨s, .inl ⟨‹_›, rfl⟩, h⟩
  · exact .inl ⟨_, .inr ⟨_, ‹_›, rfl⟩, h⟩
  · cases h; exact .inr ⟨_, _, ‹_›, rfl⟩

theorem step_next (s : State) : ∃ t, step s = .next t := by
  unfold step
  split
  · exact engineTurn_next _
  · exact engineTurn_next _
  · exact ⟨_, rfl⟩

/-! ### The host's transactions -/

/-- What a transaction can do to the state (20_memory.md R57, R58). -/
theorem transact_cases (tr : Transaction) (s : State) :
    (transact tr s).1 = s ∨
    (∃ w o v, tr = .regWrite w o v ∧ regAccessOk w o = true ∧ (transact tr s).1 = writeReg (regOfOffset o) v s) ∨
    (s.status.busy = true ∧ (transact tr s).1 = setHaz s ∧
      ((∃ w a, tr = .bufRead w a ∧ bufAccessOk s w a = true) ∨
       ∃ w a v, tr = .bufWrite w a v ∧ bufAccessOk s w a = true)) ∨
    (∃ w a v, tr = .bufWrite w a v ∧ bufAccessOk s w a = true ∧ s.status.busy = false ∧
      (transact tr s).1 = memWrite s a v) ∨
    (tr = .reset ∧ (transact tr s).1 = assertReset s) := by
  cases tr with
  | regRead w o => left; simp only [transact]; split <;> rfl
  | regWrite w o v =>
    by_cases h : regAccessOk w o = true
    · exact .inr (.inl ⟨w, o, v, rfl, h, by simp [transact, h]⟩)
    · left; simp [transact, h]
  | bufRead w a =>
    by_cases h : bufAccessOk s w a = true
    · cases hb : s.status.busy
      · left; simp [transact, h, hb]
      · exact .inr (.inr (.inl ⟨rfl, by simp [transact, h, hb], .inl ⟨w, a, rfl, h⟩⟩))
    · left; simp [transact, h]
  | bufWrite w a v =>
    by_cases h : bufAccessOk s w a = true
    · cases hb : s.status.busy
      · exact .inr (.inr (.inr (.inl ⟨w, a, v, rfl, h, rfl, by simp [transact, h, hb]⟩)))
      · exact .inr (.inr (.inl ⟨rfl, by simp [transact, h, hb], .inr ⟨w, a, v, rfl, h⟩⟩))
    · left; simp [transact, h]
  | reset => exact .inr (.inr (.inr (.inr ⟨rfl, rfl⟩)))

theorem regAccessOk_iff {w : Nat} {o : Fin 64} : regAccessOk w o = true ↔ w = 32 ∧ o.val % 4 = 0 := by
  simp [regAccessOk]

theorem bufAccessOk_iff {s : State} {w a : Nat} :
    bufAccessOk s w a = true ↔ w = 8 ∧ a < s.params.memBytes := by
  simp [bufAccessOk]

@[simp] theorem regOfOffset_regOffset (r : Reg) : regOfOffset (regOffset r) = r := by cases r <;> rfl

end Sys2Proof.Machine
end

