-- ==== Sys2Proof/Tests/Slice0.lean ====
section
/-! SUPPORT. The model's own tests: ill-formed words, decoding, vectors of 95_test_vectors.md, and for every statement
that has hypotheses a concrete state that meets them. -/

namespace Sys2Proof.Tests

set_option Elab.async false

open Sys2Proof.Machine Sys2Proof.Claims

/-! ### Well-formedness and decoding -/

/-- 0x00000011: a reserved bit is set (30_encoding.md R74). -/
theorem test_rsvZero_refuses : CmdFields.rsvZero { opc := 0x1, rsv := 0x1 } = false := by decide

/-- Opcodes 0x0 and 0x5 are reserved (30_encoding.md R71). -/
theorem test_opcAssigned_refuses :
    CmdFields.opcAssigned { opc := 0x0, rsv := 0 } = false ∧ CmdFields.opcAssigned { opc := 0x5, rsv := 0 } = false := by
  decide

theorem test_wf_refuses :
    CmdFields.wf { opc := 0x1, rsv := 0x1 } = false ∧ CmdFields.wf { opc := 0xF, rsv := 0 } = false ∧
    CmdFields.wf { opc := 0x4, rsv := 0 } = true := by decide

/-- OPC in bits 3:0 is 0001 (30_encoding.md R70, R71). -/
theorem test_decode_benc : decode 0b00000000000000000000000000000001 = .ok .benc := by decide

/-- OPC is 0010. -/
theorem test_decode_bdec : decode 0b00000000000000000000000000000010 = .ok .bdec := by decide

/-- OPC is 0011. -/
theorem test_decode_embed : decode 0b00000000000000000000000000000011 = .ok .embed := by decide

/-- OPC is 0100. -/
theorem test_decode_extract : decode 0b00000000000000000000000000000100 = .ok .extract := by decide

/-- V31: reserved bits come first, then the opcode (30_encoding.md R72). -/
theorem test_decode_rejects :
    decode 0x00000011 = .error (.reservedBits 0x1) ∧ decode 0x80000001 = .error (.reservedBits 0x8000000) ∧
    decode 0x00000000 = .error (.reservedOpcode 0x0) ∧ decode 0x00000005 = .error (.reservedOpcode 0x5) ∧
    decode 0x0000000F = .error (.reservedOpcode 0xF) := by decide

/-- The memory of State.reset is in canonical form (log entry 3). -/
theorem test_reset_memory_wf : Memory.wf State.reset.mem = true := by decide

/-! ### Small states -/

/-- Bytes at ascending addresses from `a`, in canonical form, before what is listed above them. -/
def cells (a : Nat) (rest : Memory) : List Byte → Memory
  | [] => rest
  | v :: vs => Memory.put a v (cells (a + 1) rest vs)

/-- A grid's bytes from its red bytes: green 0x11, blue 0x22, alpha 0x33 (95_test_vectors.md, 0). -/
def pixels (reds : List Byte) : List Byte := reds.flatMap fun r => [r, 0x11, 0x22, 0x33]

/-- The operand registers, in the order of the register map. -/
def ops (src slen dst grid : Word) (gw gh : Half) : OperandRegs :=
  { src := src, slen := slen, dst := dst, grid := grid, gw := gw, gh := gh }

/-- The reset state with a buffer of `n` bytes holding `m` and the operand registers written. -/
def idle (n : Nat) (o : OperandRegs) (m : Memory) : State :=
  { State.powerOn { Config.params with memBytes := n } m with operands := o }

/-- The same with command `i` started, so that an engine's turn runs it. -/
def busy (i : Instr) (n : Nat) (o : OperandRegs) (m : Memory) : State := startCommand (encode i) (idle n o m)

/-- The same with TRUNC_EN = 1. -/
def trunc (s : State) : State := { s with ctrl := { s.ctrl with truncEn := true } }

/-- The outcome is a next state that passes a check. -/
def nextOk (o : Host.Outcome State Fault Refusal) (p : State → Bool) : Bool :=
  match o with
  | .next t => p t
  | _ => false

theorem exists_of_nextOk {o : Host.Outcome State Fault Refusal} {p : State → Bool} (h : nextOk o p = true) :
    ∃ t, o = .next t ∧ p t = true := by
  cases o with
  | next t => exact ⟨t, rfl, h⟩
  | fault f => simp [nextOk] at h
  | refused r => simp [nextOk] at h

/-- "Hi". -/
def hi : List Byte := [0x48, 0x69]

/-- The symbols of "Hi" (95_test_vectors.md V1). -/
def hiSymbols : List Byte :=
  [0x30, 0x31, 0x30, 0x30, 0x31, 0x30, 0x30, 0x30, 0x30, 0x31, 0x31, 0x30, 0x31, 0x30, 0x30, 0x31]

/-- The red bytes after V14. -/
def v14Reds : List Byte :=
  [0xAA, 0xAA, 0xAA, 0xAA, 0xAA, 0xAA, 0xAA, 0xAA] ++
  [0xAA, 0xAA, 0xAA, 0xAB, 0xAA, 0xAA, 0xAA, 0xAA] ++
  [0xAA, 0xAB, 0xAA, 0xAA, 0xAB, 0xAA, 0xAA, 0xAA] ++
  [0xAA, 0xAB, 0xAB, 0xAA, 0xAB, 0xAA, 0xAA, 0xAB]

/-- A memory with "Hi" at 0x100 and a grid of these red bytes at 0x400. -/
def hiGrid (reds : List Byte) : Memory := cells 0x100 (cells 0x400 [] (pixels reds)) hi

def v1 : State := busy .benc 4096 (ops 0x100 2 0x200 0 0 0) (cells 0x100 [] hi)
def v4 : State := busy .benc 4096 (ops 4095 2 0x200 0 0 0) []
def v5a : State := busy .benc 4096 (ops 0 1 4089 0 0 0) []
def v5b : State := busy .benc 4096 (ops 0 1 4088 0 0 0) (cells 0 [] [0x69])
def v6 : State := busy .benc 4096 (ops 0x100 2 0x101 0 0 0) []
def v8 : State := busy .bdec 4096 (ops 0x100 3 0x200 0 0 0) (cells 0x100 [] [0x31, 0x30, 0x31])
def v10 : State :=
  busy .bdec 4096 (ops 0x100 9 0x200 0 0 0)
    (cells 0x100 [] [0x31, 0x30, 0x31, 0x31, 0x30, 0x31, 0x30, 0x30, 0x31])
def v12b : State := busy .bdec 4096 (ops 0x100 3 0x200 0 0 0) (cells 0x100 [] [0x30, 0x20, 0x31])
def v13b : State := busy .bdec 4096 (ops 0x100 16 0x10F 0 0 0) (cells 0x100 [] hiSymbols)
def v13c : State := busy .bdec 4096 (ops 0x100 1 4096 0 0 0) (cells 0x100 [] [0x31])
def v14 : State := busy .embed 4096 (ops 0x100 2 0x300 0x400 8 4) (hiGrid (List.replicate 32 0xAA))
def v15 : State :=
  busy .embed 4096 (ops 0x100 0 0x300 0x400 4 4) (cells 0x400 [] (pixels (List.replicate 16 0x01)))
def v16 : State := busy .embed 4096 (ops 0x100 2 0x300 0x400 31 1) (hiGrid (List.replicate 31 0xAA))
def v17 : State := trunc v16
def v18b : State := busy .embed 4096 (ops 0x100 1 0 4000 8 4) []
def v18c : State := busy .embed 4096 (ops 0x401 1 0 0x400 8 4) []
def v19a : State := busy .embed 65536 (ops 0 8192 0 0x2000 0 0) []
def v22 : State := busy .extract 4096 (ops 0 0 0x300 0x400 8 4) (hiGrid v14Reds)
def v24a : State := busy .extract 4096 (ops 0 0 0x300 0x400 15 1) (hiGrid (List.replicate 15 0xAA))
def v26 : State :=
  busy .extract 4096 (ops 0 0 0x300 0x400 19 1)
    (cells 0x400 [] (pixels (List.replicate 14 0xFE ++ [0xFF, 0xFF, 0xFF, 0xFE, 0xFF])))
def v27a : State := busy .extract 4096 (ops 0 0 0x300 0x400 32 1) (hiGrid (List.replicate 32 0xFF))
def v28 : State := busy .extract 4096 (ops 0 0 0x401 0x400 8 4) (hiGrid v14Reds)
def v29a : State := busy .extract 4096 (ops 0 0 4095 0x400 8 4) (hiGrid v14Reds)
def v29b : State := busy .extract 4096 (ops 0 0 0 4000 8 4) []

/-! ### Vectors: one engine step each -/

/-- V1. -/
theorem test_v1_benc :
    nextOk (step v1) (fun t => readBytes t 0x200 16 == hiSymbols && readReg t .rlen == 16 &&
      readReg t .status == 0x002) = true := by decide +kernel

/-- V5b: the output ends exactly at MEM_BYTES. -/
theorem test_v5b_benc :
    nextOk (step v5b) (fun t => readBytes t 4088 8 == [0x30, 0x31, 0x31, 0x30, 0x31, 0x30, 0x30, 0x31] &&
      readReg t .rlen == 8 && readReg t .status == 0x002) = true := by decide +kernel

/-- V10: nine symbols, pad 7. -/
theorem test_v10_bdec :
    nextOk (step v10) (fun t => readBytes t 0x200 2 == [0x01, 0x69] && readReg t .rlen == 2 &&
      readReg t .status == 0x002) = true := by decide +kernel

/-- V12b: a space is no digit, and nothing is written. -/
theorem test_v12b_bdec :
    nextOk (step v12b) (fun t => t.mem == v12b.mem && readReg t .rlen == 0 && readReg t .status == 0x102) = true := by
  decide +kernel

/-- V14: every byte of the grid. -/
theorem test_v14_embed :
    nextOk (step v14) (fun t => readBytes t 0x400 128 == pixels v14Reds && readReg t .hdr == 0x10 &&
      readReg t .bitcnt == 32 && readReg t .rlen == 0 && readReg t .status == 0x002) = true := by decide +kernel

/-- V15: the empty message clears sixteen red LSBs. -/
theorem test_v15_embed :
    nextOk (step v15) (fun t => readBytes t 0x400 64 == pixels (List.replicate 16 0x00) && readReg t .hdr == 0 &&
      readReg t .bitcnt == 16 && readReg t .status == 0x002) = true := by decide +kernel

/-- V22: the grid of V14, written out, gives "Hi". -/
theorem test_v22_extract :
    nextOk (step v22) (fun t => readBytes t 0x300 2 == hi && readReg t .rlen == 2 && readReg t .hdr == 16 &&
      readReg t .bitcnt == 32 && readReg t .status == 0x002) = true := by decide +kernel

/-- V26: a length that is no multiple of 8. -/
theorem test_v26_extract :
    nextOk (step v26) (fun t => memRead t 0x300 == 0x05 && readReg t .rlen == 1 && readReg t .hdr == 3 &&
      readReg t .bitcnt == 19 && readReg t .status == 0x002) = true := by decide +kernel

/-- V32: a write to SRC while busy is ignored and sets HAZ. -/
theorem test_v32_busy_write :
    nextOk (step (v1.withScript [wr32 .src 0x999])) (fun t => readReg t .src == 0x100 &&
      readReg t .status == 0x5) = true := by decide +kernel

/-- V35: ERRCODE survives ACK: from 0x602 STATUS becomes 0x600. -/
theorem test_v35_ack :
    nextOk (step (State.withScript (withCode { v4 with status := { v4.status with busy := false, done := true } } .addrErr)
      [ack])) (fun t => readReg t .status == 0x600) = true := by decide +kernel

/-- V37: a read of buffer offset 4096 gets a bus error. -/
theorem test_v37_bus_error :
    nextOk (step ((idle 4096 .zero []).withScript [rd8 4096]))
      (fun t => t.env.history == [(.bufRead 8 4096, .busError)]) = true := by decide +kernel

/-- V39: GW stores bits 15:0. -/
theorem test_v39_gw :
    nextOk (step ((idle 4096 .zero []).withScript [wr32 .gw 0xFFFFFFFF]))
      (fun t => readReg t .gw == 0x0000FFFF) = true := by decide +kernel

/-! ### Hypotheses met: the command words -/

/-- Words at both ends of the illegal range. -/
theorem witness_IllegalWordCompletesWithIllegalCmd :
    (idle 4096 .zero []).status.busy = false ∧ illegalWord 0 ∧ illegalWord 5 ∧ illegalWord 0xFFFFFFFF ∧
    hostNext ((idle 4096 .zero []).withScript [.host (.regWrite 32 0x04 5), .engine]) (.regWrite 32 0x04 5) [.engine] :=
  ⟨rfl, .inl rfl, .inr (by decide), .inr (by decide), rfl⟩

theorem witness_StepRunsDecodedCommand :
    (engineNext v1 v1 ∧ v1.status.busy = true ∧ decode v1.cmd = .ok .benc ∧ ∃ t, exec .benc v1 = .next t) ∧
    decode (tableWord 32 1) = .ok .benc ∧ ∃ t, exec .benc (startCommand (tableWord 32 1) .reset) = .next t :=
  ⟨⟨.inl ⟨rfl, rfl⟩, rfl, by decide, _, rfl⟩, by decide, _, rfl⟩

theorem witness_CommandStart :
    (idle 4096 .zero []).status.busy = false ∧
    hostNext ((idle 4096 .zero []).withScript [wr32 .cmd 1]) (.regWrite 32 0x04 1) [] := ⟨rfl, rfl⟩

/-! ### Hypotheses met: BENC and BDEC -/

/-- The out-of-range, overlapping and good clauses, the first and last at the edge of the buffer. -/
theorem witness_BencEncodesText :
    v5a.params.wf = true ∧ ¬(sourceOk v5a ∧ regionOk v5a (dstAddr v5a) (8 * srcLen v5a)) ∧
    v6.params.wf = true ∧ sourceOk v6 ∧ regionOk v6 (dstAddr v6) (8 * srcLen v6) ∧ ¬sourceApart v6 (8 * srcLen v6) ∧
    v5b.params.wf = true ∧ sourceOk v5b ∧ regionOk v5b (dstAddr v5b) (8 * srcLen v5b) ∧
    sourceApart v5b (8 * srcLen v5b) := by decide +kernel

theorem witness_BdecDecodesSymbols :
    (v13c.params.wf = true ∧ Memory.wf v13c.mem = true ∧
      ¬(sourceOk v13c ∧ regionOk v13c (dstAddr v13c) ((srcLen v13c + 7) / 8))) ∧
    (v13b.params.wf = true ∧ Memory.wf v13b.mem = true ∧ sourceOk v13b ∧
      regionOk v13b (dstAddr v13b) ((srcLen v13b + 7) / 8) ∧ ¬sourceApart v13b ((srcLen v13b + 7) / 8)) ∧
    (v12b.params.wf = true ∧ Memory.wf v12b.mem = true ∧ sourceOk v12b ∧
      regionOk v12b (dstAddr v12b) ((srcLen v12b + 7) / 8) ∧ sourceApart v12b ((srcLen v12b + 7) / 8) ∧
      1 < srcLen v12b ∧ sourceSymbol v12b 1 ≠ 0x30 ∧ sourceSymbol v12b 1 ≠ 0x31) ∧
    (v8.params.wf = true ∧ Memory.wf v8.mem = true ∧ sourceOk v8 ∧
      regionOk v8 (dstAddr v8) ((srcLen v8 + 7) / 8) ∧ sourceApart v8 ((srcLen v8 + 7) / 8) ∧
      ∀ k, k < srcLen v8 → sourceSymbol v8 k = 0x30 ∨ sourceSymbol v8 k = 0x31) := by decide +kernel

theorem witness_BencThenBdecReturnsText :
    ∃ s s2 t : State, s.params.wf = true ∧ Memory.wf s.mem = true ∧ s.status.errcode = .none ∧
      exec .benc s = .next t ∧ t.status.errcode = .none ∧ s2.mem = t.mem ∧ s2.params = t.params ∧
      s2.status.errcode = .none ∧ srcAddr s2 = dstAddr s ∧ srcLen s2 = 8 * srcLen s ∧
      regionOk s2 (dstAddr s2) (srcLen s) ∧ sourceApart s2 (srcLen s) := by
  obtain ⟨t, h, hp⟩ := exists_of_nextOk (show nextOk (exec .benc v1)
    (fun t => decide (t.status.errcode = .none) && decide (t.params = v1.params)) = true by decide +kernel)
  simp only [Bool.and_eq_true, decide_eq_true_eq] at hp
  let b := busy .bdec 4096 (ops 0x200 16 0x300 0 0 0) []
  have hr : regionOk b (dstAddr b) (srcLen v1) := by decide +kernel
  have ha : sourceApart b (srcLen v1) := by decide +kernel
  exact ⟨v1, { b with mem := t.mem }, t, by decide +kernel, by decide +kernel, rfl, h, hp.1, rfl, hp.2.symm, rfl, rfl,
    rfl, hr, ha⟩

/-! ### Hypotheses met: EMBED -/

/-- Each way EMBED ends; the capacity clauses one pixel apart. -/
theorem witness_EmbedWritesStream :
    (Memory.wf v18b.mem = true ∧ ¬(sourceOk v18b ∧ gridOk v18b)) ∧
    (Memory.wf v18c.mem = true ∧ sourceOk v18c ∧ gridOk v18c ∧ ¬textApart v18c) ∧
    (Memory.wf v19a.mem = true ∧ sourceOk v19a ∧ gridOk v19a ∧ textApart v19a ∧ 8191 < srcLen v19a) ∧
    (Memory.wf v16.mem = true ∧ sourceOk v16 ∧ gridOk v16 ∧ textApart v16 ∧ srcLen v16 ≤ 8191 ∧
      pixelCount v16 < 16 + 8 * srcLen v16 ∧ v16.ctrl.truncEn = false) ∧
    (Memory.wf v14.mem = true ∧ sourceOk v14 ∧ gridOk v14 ∧ textApart v14 ∧ srcLen v14 ≤ 8191 ∧
      16 + 8 * srcLen v14 ≤ pixelCount v14) ∧
    (Memory.wf v17.mem = true ∧ sourceOk v17 ∧ gridOk v17 ∧ textApart v17 ∧ srcLen v17 ≤ 8191 ∧
      v17.ctrl.truncEn = true) := by decide +kernel

/-- A successful EMBED, its text, and the last pixel it reaches. -/
theorem witness_BitPlacementIsRowMajor :
    (∃ t, exec .embed v14 = .next t ∧ t.status.errcode = .none) ∧ Memory.wf v14.mem = true ∧
    v14.status.errcode = .none ∧ 7 < gridWidth v14 ∧ 3 < gridHeight v14 ∧
    scanIndex (gridWidth v14) 7 3 < min (16 + 8 * srcLen v14) (pixelCount v14) := by
  refine ⟨?_, by decide +kernel, rfl, by decide +kernel⟩
  obtain ⟨t, h, hp⟩ := exists_of_nextOk (show nextOk (exec .embed v14)
    (fun t => decide (t.status.errcode = .none)) = true by decide +kernel)
  exact ⟨t, h, of_decide_eq_true hp⟩

/-- One pixel short under either policy, and an exact fit. -/
theorem witness_CapacityPolicy :
    (Memory.wf v16.mem = true ∧ v16.status.errcode = .none ∧ sourceOk v16 ∧ gridOk v16 ∧ textApart v16 ∧
      srcLen v16 ≤ 8191 ∧ pixelCount v16 < 16 + 8 * srcLen v16 ∧ v16.ctrl.truncEn = false) ∧
    (Memory.wf v17.mem = true ∧ v17.status.errcode = .none ∧ sourceOk v17 ∧ gridOk v17 ∧ textApart v17 ∧
      srcLen v17 ≤ 8191 ∧ pixelCount v17 < 16 + 8 * srcLen v17 ∧ v17.ctrl.truncEn = true) ∧
    (Memory.wf v14.mem = true ∧ v14.status.errcode = .none ∧ sourceOk v14 ∧ gridOk v14 ∧ textApart v14 ∧
      srcLen v14 ≤ 8191 ∧ pixelCount v14 = 16 + 8 * srcLen v14) := by decide +kernel

theorem witness_EmbedTouchesOnlyRedLsbs : Memory.wf v14.mem = true ∧ ∃ t, exec .embed v14 = .next t := by
  refine ⟨by decide +kernel, ?_⟩
  obtain ⟨t, h, -⟩ := exists_of_nextOk (show nextOk (exec .embed v14) (fun _ => true) = true by decide +kernel)
  exact ⟨t, h⟩

/-- Exactly 8192 characters. -/
theorem witness_HeaderHoldsPayloadLength :
    sourceOk v19a ∧ gridOk v19a ∧ textApart v19a ∧ 8192 ≤ srcLen v19a := by decide +kernel

/-- Two EMBED runs over equal inputs at other places, each past the region checks, and how the first ends. -/
def embedTwice (s s' t t' : State) (e : ErrCode) : Prop :=
  Memory.wf s.mem = true ∧ Memory.wf s'.mem = true ∧ s.status.errcode = .none ∧ s'.status.errcode = .none ∧
    (sourceOk s ∧ gridOk s ∧ textApart s) ∧ (sourceOk s' ∧ gridOk s' ∧ textApart s') ∧
    exec .embed s = .next t ∧ exec .embed s' = .next t' ∧ t.status.errcode = e ∧ srcLen s' = srcLen s ∧
    gridWidth s' = gridWidth s ∧ gridHeight s' = gridHeight s ∧ s'.ctrl.truncEn = s.ctrl.truncEn ∧
    s'.results = s.results ∧ srcAddr s' ≠ srcAddr s ∧
    (∀ j, j < srcLen s → memRead s' (srcAddr s' + j) = memRead s (srcAddr s + j)) ∧
    ∀ o, o < 4 * pixelCount s → memRead s' (gridAddr s' + o) = memRead s (gridAddr s + o)

/-- The runs of V14 and of V16 with the text at 0x110 and the grid at 0x800: a success and a CAPACITY_ERR; and a second
run after the first. -/
theorem witness_EmbedRepeatsExactly :
    (∃ s s' t t', embedTwice s s' t t' .none ∧
      ∃ s2 : State, s2.mem = t.mem ∧ s2.params = s.params ∧ s2.operands = s.operands ∧
        s2.ctrl.truncEn = s.ctrl.truncEn) ∧
    ∃ s s' t t', embedTwice s s' t t' .capacityErr := by
  let moved (w h : Half) (n : Nat) := busy .embed 4096 (ops 0x110 2 0 0x800 w h)
    (cells 0x110 (cells 0x800 [] (pixels (List.replicate n 0xAA))) hi)
  have run (s : State) (e : ErrCode) (h : nextOk (exec .embed s) (fun t => decide (t.status.errcode = e)) = true) :
      ∃ t, exec .embed s = .next t ∧ t.status.errcode = e := by
    obtain ⟨t, ht, he⟩ := exists_of_nextOk h
    exact ⟨t, ht, of_decide_eq_true he⟩
  obtain ⟨t, h, he⟩ := run v14 .none (by decide +kernel)
  obtain ⟨t', h', -⟩ := run (moved 8 4 32) .none (by decide +kernel)
  obtain ⟨u, k, ke⟩ := run v16 .capacityErr (by decide +kernel)
  obtain ⟨u', k', -⟩ := run (moved 31 1 31) .capacityErr (by decide +kernel)
  exact ⟨⟨v14, moved 8 4 32, t, t', ⟨by decide +kernel, by decide +kernel, rfl, rfl, by decide +kernel, by decide +kernel,
    h, h', he, by decide +kernel, by decide +kernel, by decide +kernel, rfl, rfl, by decide +kernel, by decide +kernel,
    by decide +kernel⟩, { v14 with mem := t.mem }, rfl, rfl, rfl, rfl⟩, v16, moved 31 1 31, u, u', by decide +kernel,
    by decide +kernel, rfl, rfl, by decide +kernel, by decide +kernel, k, k', ke, by decide +kernel, by decide +kernel,
    by decide +kernel, rfl, rfl, by decide +kernel, by decide +kernel, by decide +kernel⟩

theorem witness_EmbedEmptyMessage :
    Memory.wf v15.mem = true ∧ srcLen v15 = 0 ∧ 16 ≤ pixelCount v15 ∧ gridOk v15 := by decide +kernel

/-! ### Hypotheses met: EXTRACT -/

/-- Each way EXTRACT ends: the grid out of range, 15 pixels, a header too long, the two output errors, success. -/
theorem witness_ExtractRecoversText :
    (v29b.params.wf = true ∧ Memory.wf v29b.mem = true ∧ ¬gridOk v29b) ∧
    (v24a.params.wf = true ∧ Memory.wf v24a.mem = true ∧ gridOk v24a ∧ pixelCount v24a < 16) ∧
    (v27a.params.wf = true ∧ Memory.wf v27a.mem = true ∧ gridOk v27a ∧ 16 ≤ pixelCount v27a ∧
      pixelCount v27a - 16 < 65535 ∧ headerValue v27a = 65535) ∧
    (v29a.params.wf = true ∧ Memory.wf v29a.mem = true ∧ gridOk v29a ∧ 16 + 16 ≤ pixelCount v29a ∧
      ¬regionOk v29a (dstAddr v29a) ((16 + 7) / 8) ∧ headerValue v29a = 16) ∧
    (v28.params.wf = true ∧ Memory.wf v28.mem = true ∧ gridOk v28 ∧ 16 + 16 ≤ pixelCount v28 ∧
      regionOk v28 (dstAddr v28) ((16 + 7) / 8) ∧ ¬gridApart v28 ((16 + 7) / 8) ∧ headerValue v28 = 16) ∧
    (v22.params.wf = true ∧ Memory.wf v22.mem = true ∧ gridOk v22 ∧ 16 + 16 ≤ pixelCount v22 ∧
      regionOk v22 (dstAddr v22) ((16 + 7) / 8) ∧ gridApart v22 ((16 + 7) / 8) ∧ headerValue v22 = 16) := by
  decide +kernel

/-- A run that raises HEADER_ERR, at 15 pixels, and one that does not. -/
theorem witness_HeaderErrOnlyOnSmallGrid :
    (v24a.status.errcode = .none ∧ v24a.results = .zero ∧ gridOk v24a ∧ pixelCount v24a = 15 ∧
      ∃ t, exec .extract v24a = .next t ∧ t.status.errcode = .headerErr) ∧
    v22.status.errcode = .none ∧ v22.results = .zero ∧ ∃ t, exec .extract v22 = .next t := by
  obtain ⟨t, h, hp⟩ := exists_of_nextOk (show nextOk (exec .extract v24a)
    (fun t => decide (t.status.errcode = .headerErr)) = true by decide +kernel)
  obtain ⟨t', h', -⟩ := exists_of_nextOk (show nextOk (exec .extract v22) (fun _ => true) = true by decide +kernel)
  exact ⟨⟨rfl, rfl, by decide +kernel, by decide +kernel, t, h, of_decide_eq_true hp⟩, rfl, rfl, t', h'⟩

theorem witness_ShortGridRaisesPayloadTrunc :
    gridOk v27a ∧ 16 ≤ pixelCount v27a ∧ pixelCount v27a - 16 < headerValue v27a := by decide +kernel

theorem witness_OnlyBdecRaisesDecodeErr :
    v12b.status.errcode = .none ∧ ∃ t, exec .bdec v12b = .next t ∧ t.status.errcode = .decodeErr := by
  obtain ⟨t, h, hp⟩ := exists_of_nextOk (show nextOk (exec .bdec v12b)
    (fun t => decide (t.status.errcode = .decodeErr)) = true by decide +kernel)
  exact ⟨rfl, t, h, of_decide_eq_true hp⟩

theorem witness_ExtractKeepsGrid : 0 < 4 * pixelCount v22 ∧ ∃ t, exec .extract v22 = .next t := by
  obtain ⟨t, h, -⟩ := exists_of_nextOk (show nextOk (exec .extract v22) (fun _ => true) = true by decide +kernel)
  exact ⟨by decide +kernel, t, h⟩

/-! ### Hypotheses met: the pair -/

theorem witness_EmbedExtractRoundTrip :
    ∃ s s2 t : State, s.params.wf = true ∧ Memory.wf s.mem = true ∧ s.status.errcode = .none ∧
      s.ctrl.truncEn = false ∧ exec .embed s = .next t ∧ t.status.errcode = .none ∧
      16 + 8 * srcLen s ≤ pixelCount s ∧ s2.mem = t.mem ∧ s2.params = s.params ∧ s2.status.errcode = .none ∧
      gridAddr s2 = gridAddr s ∧ gridWidth s2 = gridWidth s ∧ gridHeight s2 = gridHeight s ∧
      regionOk s2 (dstAddr s2) (srcLen s) ∧ gridApart s2 (srcLen s) := by
  obtain ⟨t, h, hp⟩ := exists_of_nextOk (show nextOk (exec .embed v14)
    (fun t => decide (t.status.errcode = .none)) = true by decide +kernel)
  have hr : regionOk v14 (dstAddr v14) (srcLen v14) := by decide +kernel
  have ha : gridApart v14 (srcLen v14) := by decide +kernel
  exact ⟨v14, { v14 with mem := t.mem }, t, by decide +kernel, by decide +kernel, rfl, rfl, h, of_decide_eq_true hp,
    by decide +kernel, rfl, rfl, rfl, rfl, rfl, rfl, hr, ha⟩

/-- A truncated EMBED on `s` and an EXTRACT after it, with the number of pixels. -/
def truncatedPair (s s2 t : State) (p : Nat) : Prop :=
  Memory.wf s.mem = true ∧ s.status.errcode = .none ∧ s.ctrl.truncEn = true ∧ exec .embed s = .next t ∧
    t.status.errcode = .none ∧ pixelCount s < 16 + 8 * srcLen s ∧ s2.mem = t.mem ∧ s2.params = s.params ∧
    s2.status.errcode = .none ∧ gridAddr s2 = gridAddr s ∧ gridWidth s2 = gridWidth s ∧
    gridHeight s2 = gridHeight s ∧ pixelCount s = p

/-- Fifteen pixels, and sixteen or more. -/
theorem witness_TruncatedEmbedIsDetected :
    (∃ s s2 t, truncatedPair s s2 t 15) ∧ ∃ s s2 t, truncatedPair s s2 t 16 := by
  let s := trunc (busy .embed 4096 (ops 0x100 2 0x300 0x400 15 1) (hiGrid (List.replicate 15 0xAA)))
  let s' := trunc (busy .embed 4096 (ops 0x100 2 0x300 0x400 16 1) (hiGrid (List.replicate 16 0xAA)))
  obtain ⟨t, h, hp⟩ := exists_of_nextOk (show nextOk (exec .embed s)
    (fun t => decide (t.status.errcode = .none)) = true by decide +kernel)
  obtain ⟨t', h', hp'⟩ := exists_of_nextOk (show nextOk (exec .embed s')
    (fun t => decide (t.status.errcode = .none)) = true by decide +kernel)
  exact ⟨⟨s, { s with mem := t.mem }, t, by decide +kernel, rfl, rfl, h, of_decide_eq_true hp, by decide +kernel, rfl,
    rfl, rfl, rfl, rfl, rfl, by decide +kernel⟩, s', { s' with mem := t'.mem }, t', by decide +kernel, rfl, rfl, h',
    of_decide_eq_true hp', by decide +kernel, rfl, rfl, rfl, rfl, rfl, rfl, by decide +kernel⟩

/-- V30a and V30b: 32 by 1 and 4 by 8. -/
theorem witness_ExtractDependsOnlyOnPixelCount :
    ∃ s s' t t' : State, s'.params = s.params ∧ s'.mem = s.mem ∧ s'.status = s.status ∧ s'.results = s.results ∧
      gridAddr s' = gridAddr s ∧ dstAddr s' = dstAddr s ∧ pixelCount s' = pixelCount s ∧
      gridWidth s' ≠ gridWidth s ∧ exec .extract s = .next t ∧ exec .extract s' = .next t' := by
  let s := busy .extract 4096 (ops 0 0 0x300 0x400 32 1) (hiGrid v14Reds)
  let s' := busy .extract 4096 (ops 0 0 0x300 0x400 4 8) (hiGrid v14Reds)
  obtain ⟨t, h, -⟩ := exists_of_nextOk (show nextOk (exec .extract s) (fun _ => true) = true by decide +kernel)
  obtain ⟨t', h', -⟩ := exists_of_nextOk (show nextOk (exec .extract s') (fun _ => true) = true by decide +kernel)
  exact ⟨s, s', t, t', rfl, rfl, rfl, rfl, rfl, rfl, by decide +kernel, by decide +kernel, h, h'⟩

/-! ### Hypotheses met: operands and errors -/

/-- For each command a state that differs in a register the command does not read. -/
theorem witness_UnlistedRegistersDoNotMatter :
    sameOperands .benc v1 { v1 with operands := { v1.operands with grid := 1, gw := 2, gh := 3 } } ∧
    sameOperands .bdec v8 { v8 with operands := { v8.operands with grid := 1, gw := 2, gh := 3 } } ∧
    sameOperands .embed v14 { v14 with operands := { v14.operands with dst := 1 } } ∧
    sameOperands .extract v22 { v22 with operands := { v22.operands with src := 1, slen := 2 }, ctrl := { ie := true, truncEn := true } } ∧
    (∃ t, exec .benc v1 = .next t) ∧ (∃ t, exec .bdec v8 = .next t) ∧ (∃ t, exec .embed v14 = .next t) ∧
    ∃ t, exec .extract v22 = .next t := by
  obtain ⟨t1, h1, -⟩ := exists_of_nextOk (show nextOk (exec .benc v1) (fun _ => true) = true by decide +kernel)
  obtain ⟨t2, h2, -⟩ := exists_of_nextOk (show nextOk (exec .bdec v8) (fun _ => true) = true by decide +kernel)
  obtain ⟨t3, h3, -⟩ := exists_of_nextOk (show nextOk (exec .embed v14) (fun _ => true) = true by decide +kernel)
  obtain ⟨t4, h4, -⟩ := exists_of_nextOk (show nextOk (exec .extract v22) (fun _ => true) = true by decide +kernel)
  exact ⟨⟨rfl, rfl, rfl⟩, ⟨rfl, rfl, rfl⟩, ⟨rfl, rfl, rfl, rfl, rfl, rfl⟩, ⟨rfl, rfl, rfl, rfl⟩, ⟨t1, h1⟩, ⟨t2, h2⟩,
    ⟨t3, h3⟩, t4, h4⟩

/-- A run for the first clause, and a word at each end of the illegal range for the second. -/
theorem witness_FirstFailingCheckIsReported :
    v12b.status.errcode = .none ∧ (∃ t, exec .bdec v12b = .next t) ∧
    illegalWord ({ v1 with cmd := 0 } : State).cmd ∧ illegalWord ({ v1 with cmd := 5 } : State).cmd := by
  obtain ⟨t, h, -⟩ := exists_of_nextOk (show nextOk (exec .bdec v12b) (fun _ => true) = true by decide +kernel)
  exact ⟨rfl, ⟨t, h⟩, .inl rfl, .inr (by decide)⟩

/-- An EXTRACT whose output is out of range, which records HDR and BITCNT. -/
theorem witness_ErrorsArePrecise :
    engineNext v29a v29a ∧ v29a.status.busy = true ∧ v29a.startedClean = true ∧
    ∃ t, step v29a = .next t ∧ t.status.errcode ≠ .none := by
  obtain ⟨t, h, hp⟩ := exists_of_nextOk (show nextOk (step v29a)
    (fun t => decide (t.status.errcode ≠ .none)) = true by decide +kernel)
  exact ⟨.inl ⟨rfl, rfl⟩, rfl, by decide +kernel, t, h, of_decide_eq_true hp⟩

/-! ### Hypotheses met: the ports -/

/-- An idle state and a busy one whose next turn is the host's. -/
def asks (t : Transaction) : State := (idle 4096 (ops 1 2 3 4 5 6) (cells 0x100 [] hi)).withScript [.host t]

def asksBusy (t : Transaction) : State := v1.withScript [.host t]

/-- The first register, the last and the last reserved slot. -/
theorem witness_RegisterReadsFollowTheMap :
    (0x00 : Fin 64).val % 4 = 0 ∧ hostNext (asks (.regRead 32 0x00)) (.regRead 32 0x00) [] ∧
    (0x2C : Fin 64).val % 4 = 0 ∧ hostNext (asks (.regRead 32 0x2C)) (.regRead 32 0x2C) [] ∧
    (0x3C : Fin 64).val % 4 = 0 ∧ hostNext (asksBusy (.regRead 32 0x3C)) (.regRead 32 0x3C) [] :=
  ⟨by decide, rfl, by decide, rfl, by decide, rfl⟩

theorem witness_IdleRegisterWrites :
    (asks (.regWrite 32 0x3C 7)).status.busy = false ∧ (0x3C : Fin 64).val % 4 = 0 ∧ (0x3C : Fin 64).val ≠ 0x04 ∧
    (0x3C : Fin 64).val ≠ 0x08 ∧ hostNext (asks (.regWrite 32 0x3C 7)) (.regWrite 32 0x3C 7) [] ∧
    (0x20 : Fin 64).val % 4 = 0 ∧ hostNext (asks (.regWrite 32 0x20 7)) (.regWrite 32 0x20 7) [] :=
  ⟨rfl, by decide, by decide, by decide, rfl, by decide, rfl⟩

theorem witness_StatusWriteClears :
    hostNext (asks (.regWrite 32 0x08 6)) (.regWrite 32 0x08 6) [] ∧
    hostNext (asksBusy (.regWrite 32 0x08 6)) (.regWrite 32 0x08 6) [] := ⟨rfl, rfl⟩

theorem witness_CmdRegister :
    ((asks (.regWrite 32 0x04 9)).status.busy = false ∧ hostNext (asks (.regWrite 32 0x04 9)) (.regWrite 32 0x04 9) []) ∧
    ((asksBusy (.regWrite 32 0x04 9)).status.busy = true ∧
      hostNext (asksBusy (.regWrite 32 0x04 9)) (.regWrite 32 0x04 9) []) ∧
    hostNext (asks (.regRead 32 0x04)) (.regRead 32 0x04) [] ∧
    (engineNext { v1 with cmd := 5 } { v1 with cmd := 5 } ∧ illegalWord 5) :=
  ⟨⟨rfl, rfl⟩, ⟨rfl, rfl⟩, rfl, .inl ⟨rfl, rfl⟩, .inr (by decide)⟩

theorem witness_RegisterAccessesWhileBusy :
    (asksBusy (.regWrite 32 0x04 0)).status.busy = true ∧ (0x04 : Fin 64).val % 4 = 0 ∧ (0x04 : Fin 64).val ≠ 0x08 ∧
    hostNext (asksBusy (.regWrite 32 0x04 0)) (.regWrite 32 0x04 0) [] ∧
    (0x3C : Fin 64).val % 4 = 0 ∧ hostNext (asksBusy (.regWrite 32 0x3C 0)) (.regWrite 32 0x3C 0) [] ∧
    hostNext (asksBusy (.regWrite 32 0x08 0)) (.regWrite 32 0x08 0) [] ∧
    hostNext (asksBusy (.regRead 32 0x08)) (.regRead 32 0x08) [] :=
  ⟨rfl, by decide, by decide, rfl, by decide, rfl, rfl, rfl⟩

theorem witness_BusyKeepsOperands :
    ((asksBusy (.regWrite 32 0x0C 0)).status.busy = true ∧ (∀ ts, ¬hostNext (asksBusy (.regWrite 32 0x0C 0)) .reset ts) ∧
      ∃ t, step (asksBusy (.regWrite 32 0x0C 0)) = .next t) ∧
    (engineNext v1 v1 ∧ v1.status.busy = true ∧ v1.cmd = encode .benc ∧ ∃ t, step v1 = .next t) :=
  ⟨⟨rfl, fun ts h => by simp [hostNext, asksBusy, State.withScript] at h, _, rfl⟩, .inl ⟨rfl, rfl⟩, rfl, rfl, _, rfl⟩

theorem witness_ResultsChangeOnlyByCommandOrReset :
    ∃ t, step v1 = .next t ∧ t.results ≠ v1.results := by
  obtain ⟨t, h, hp⟩ := exists_of_nextOk (show nextOk (step v1)
    (fun t => decide (t.results ≠ v1.results)) = true by decide +kernel)
  exact ⟨t, h, of_decide_eq_true hp⟩

/-- HAZ cleared, and HAZ set at the last byte of the buffer. -/
theorem witness_HazIsSticky :
    (∃ t, step (setHaz (asks (.regWrite 32 0x08 4))) = .next t ∧ t.status.haz = false) ∧
    (setHaz (asks (.regWrite 32 0x08 4))).status.haz = true ∧
    (asksBusy (.bufRead 8 4095)).status.haz = false ∧ 4095 < (asksBusy (.bufRead 8 4095)).params.memBytes ∧
    ∃ t, step (asksBusy (.bufRead 8 4095)) = .next t ∧ t.status.haz = true := by
  obtain ⟨t, h, hp⟩ := exists_of_nextOk (show nextOk (step (setHaz (asks (.regWrite 32 0x08 4))))
    (fun t => decide (t.status.haz = false)) = true by decide +kernel)
  obtain ⟨t', h', hp'⟩ := exists_of_nextOk (show nextOk (step (asksBusy (.bufRead 8 4095)))
    (fun t => decide (t.status.haz = true)) = true by decide +kernel)
  exact ⟨⟨t, h, of_decide_eq_true hp⟩, rfl, rfl, by decide +kernel, t', h', of_decide_eq_true hp'⟩

theorem witness_OnlyCmdWriteStartsCommand :
    (asks (.regWrite 32 0x04 1)).status.busy = false ∧
    ∃ t, step (asks (.regWrite 32 0x04 1)) = .next t ∧ t.status.busy = true := by
  obtain ⟨t, h, hp⟩ := exists_of_nextOk (show nextOk (step (asks (.regWrite 32 0x04 1)))
    (fun t => decide (t.status.busy = true)) = true by decide +kernel)
  exact ⟨rfl, t, h, of_decide_eq_true hp⟩

/-- Each clause: a wrong width, the first offset past the end, and the last byte, idle and busy. -/
theorem witness_BufferPort :
    Memory.wf (asks (.bufRead 8 0)).mem = true ∧ Memory.wf (asksBusy (.bufRead 8 0)).mem = true ∧
    (asks (.bufRead 8 0)).params.memBytes = 4096 ∧ (asksBusy (.bufRead 8 0)).params.memBytes = 4096 ∧
    (asks (.bufRead 8 0)).status.busy = false ∧ (asksBusy (.bufRead 8 0)).status.busy = true ∧
    hostNext (asks (.bufRead 8 4096)) (.bufRead 8 4096) [] ∧ hostNext (asks (.bufRead 16 0)) (.bufRead 16 0) [] ∧
    hostNext (asks (.bufWrite 8 4096 1)) (.bufWrite 8 4096 1) [] ∧ hostNext (asks (.bufRead 8 4095)) (.bufRead 8 4095) [] ∧
    hostNext (asks (.bufWrite 8 4095 1)) (.bufWrite 8 4095 1) [] ∧
    hostNext (asksBusy (.bufRead 8 4095)) (.bufRead 8 4095) [] ∧
    hostNext (asksBusy (.bufWrite 8 4095 1)) (.bufWrite 8 4095 1) [] :=
  ⟨by decide +kernel, by decide +kernel, rfl, rfl, rfl, rfl, rfl, rfl, rfl, rfl, rfl, rfl, rfl⟩

theorem witness_BufferAccessesWhileBusy :
    (asksBusy (.bufRead 8 4095)).status.busy = true ∧ 4095 < (asksBusy (.bufRead 8 4095)).params.memBytes ∧
    hostNext (asksBusy (.bufRead 8 4095)) (.bufRead 8 4095) [] ∧
    hostNext (asksBusy (.bufWrite 8 0 1)) (.bufWrite 8 0 1) [] := ⟨rfl, by decide +kernel, rfl, rfl⟩

/-- A bad access of each port, at the edges. -/
theorem witness_BusErrorsChangeNothing :
    (badAccess (asks (.regRead 16 0x08)) (.regRead 16 0x08) ∧ hostNext (asks (.regRead 16 0x08)) (.regRead 16 0x08) []) ∧
    (badAccess (asksBusy (.regWrite 32 0x02 0)) (.regWrite 32 0x02 0) ∧
      hostNext (asksBusy (.regWrite 32 0x02 0)) (.regWrite 32 0x02 0) []) ∧
    (badAccess (asks (.bufRead 8 4096)) (.bufRead 8 4096) ∧ hostNext (asks (.bufRead 8 4096)) (.bufRead 8 4096) []) ∧
    (badAccess (asksBusy (.bufWrite 32 0 0)) (.bufWrite 32 0 0) ∧
      hostNext (asksBusy (.bufWrite 32 0 0)) (.bufWrite 32 0 0) []) :=
  ⟨⟨.inl (by decide), rfl⟩, ⟨.inr (by decide), rfl⟩, ⟨.inr (by decide +kernel), rfl⟩, .inl (by decide), rfl⟩

/-- A STATUS write, a refused write at CMD's offset, and a write of the last byte, idle and busy. -/
theorem witness_HostWritesAreIdempotent :
    ¬(32 = 32 ∧ (0x08 : Fin 64).val = 0x04) ∧ ¬(16 = 32 ∧ (0x04 : Fin 64).val = 0x04) ∧
    Memory.wf (asks (.bufWrite 8 4095 1)).mem = true ∧ bufAccessOk (asks (.bufWrite 8 4095 1)) 8 4095 = true ∧
    Memory.wf (asksBusy (.bufWrite 8 4095 1)).mem = true := by decide +kernel

theorem witness_CanonicalMemoryIsUnique :
    Memory.wf (cells 0x100 [] hi) = true ∧ ∀ a, Memory.read (cells 0x100 [] hi) a = Memory.read (cells 0x100 [] hi) a :=
  ⟨by decide +kernel, fun _ => rfl⟩

/-! ### Hypotheses met: the interrupt and reset -/

theorem witness_InterruptFollowsDone :
    (engineNext v1 v1 ∧ v1.status.busy = true ∧ ∃ t, step v1 = .next t) ∧
    ((asks (.regWrite 32 0x00 1)).status.busy = false ∧ hostNext (asks (.regWrite 32 0x00 1)) (.regWrite 32 0x00 1) []) ∧
    ((2 : Word).getLsbD 1 = true ∧ hostNext (asks (.regWrite 32 0x08 2)) (.regWrite 32 0x08 2) []) ∧
    hostNext (asks (.regWrite 32 0x04 2)) (.regWrite 32 0x04 2) [] ∧
    (badAccess (asks (.bufRead 8 4096)) (.bufRead 8 4096) ∧ hostNext (asks (.bufRead 8 4096)) (.bufRead 8 4096) []) :=
  ⟨⟨.inl ⟨rfl, rfl⟩, rfl, _, rfl⟩, ⟨rfl, rfl⟩, ⟨by decide, rfl⟩, rfl, .inr (by decide +kernel), rfl⟩

theorem witness_ResetClearsRegisters :
    hostNext (asks .reset) .reset [] ∧ (asks .reset).status.busy = false ∧
    hostNext (asksBusy .reset) .reset [] ∧ (asksBusy .reset).status.busy = true := ⟨rfl, rfl, rfl, rfl⟩

/-- A command that would have completed, one that would have ended in an error, and an illegal one; and an engine's step
that ends a command. -/
theorem witness_ResetWhileBusy :
    (Memory.wf (asksBusy .reset).mem = true ∧ (asksBusy .reset).status.busy = true ∧ hostNext (asksBusy .reset) .reset [] ∧
      (asksBusy .reset).cmd = encode .benc ∧ ∃ v, exec .benc (asksBusy .reset) = .next v ∧ v.status.errcode = .none) ∧
    (hostNext (v4.withScript [rst]) .reset [] ∧ v4.cmd = encode .benc ∧
      ∃ v, exec .benc (v4.withScript [rst]) = .next v ∧ v.status.errcode ≠ .none) ∧
    (hostNext (State.withScript { v1 with cmd := 0 } [rst]) .reset [] ∧ illegalWord 0) ∧
    ∃ t, step v1 = .next t ∧ v1.status.busy = true ∧ t.status.busy = false := by
  obtain ⟨v, h, hp⟩ := exists_of_nextOk (show nextOk (exec .benc (asksBusy .reset))
    (fun t => decide (t.status.errcode = .none)) = true by decide +kernel)
  obtain ⟨v', h', hp'⟩ := exists_of_nextOk (show nextOk (exec .benc (v4.withScript [rst]))
    (fun t => decide (t.status.errcode ≠ .none)) = true by decide +kernel)
  obtain ⟨t, ht, hpt⟩ := exists_of_nextOk (show nextOk (step v1)
    (fun t => decide (t.status.busy = false)) = true by decide +kernel)
  exact ⟨⟨by decide +kernel, rfl, rfl, rfl, v, h, of_decide_eq_true hp⟩, ⟨rfl, rfl, v', h', of_decide_eq_true hp'⟩,
    ⟨rfl, .inl rfl⟩, t, ht, rfl, of_decide_eq_true hpt⟩

/-- The last byte of the buffer. -/
theorem witness_PowerOnHoldsMemInit : 4095 < Config.params.memBytes := by decide

/-! ### Hypotheses met: whole-machine rules -/

/-- A state that meets the invariant with a command in flight, and its completion. -/
theorem witness_StepKeepsInvariant : v22.inv = true ∧ ∃ t, step v22 = .next t := by
  obtain ⟨t, h, -⟩ := exists_of_nextOk (show nextOk (step v22) (fun _ => true) = true by decide +kernel)
  exact ⟨by decide +kernel, t, h⟩

theorem witness_ParametersNeverChange : ∃ t, step (asks (.bufWrite 8 0 1)) = .next t := ⟨_, rfl⟩

end Sys2Proof.Tests
end

section
/-! Bounded liveness (00_scope.md R14): a step uses up one turn of the script, and the engine's turn leaves the block
idle. -/

namespace Sys2Proof.Proofs

open Sys2Proof.Machine Sys2Proof.Claims

/-! ### What the engine's turn leaves unchanged -/

theorem execBenc_frame {s t : State} (h : execBenc s = .next t) : frame s t := by
  obtain ⟨-, rfl⟩ | ⟨-, -, -, rfl⟩ | ⟨-, -, -, rfl⟩ := execBenc_cases h <;> simp [frame]

theorem execBdec_frame {s t : State} (h : execBdec s = .next t) : frame s t := by
  obtain ⟨-, rfl⟩ | ⟨-, -, -, rfl⟩ | ⟨-, -, -, -, rfl⟩ | ⟨-, -, -, _, -, rfl⟩ := execBdec_cases h <;> simp [frame]

theorem execEmbed_frame {s t : State} (h : execEmbed s = .next t) : frame s t := by
  obtain ⟨-, rfl⟩ | ⟨-, -, -, rfl⟩ | ⟨-, -, -, -, rfl⟩ | ⟨-, -, -, -, -, -, rfl⟩ | ⟨-, -, -, -, -, rfl⟩ :=
    execEmbed_cases h <;> simp [frame]

theorem execExtract_frame {s t : State} (h : execExtract s = .next t) : frame s t := by
  obtain ⟨-, rfl⟩ | ⟨-, -, rfl⟩ | ⟨-, -, -, rfl⟩ | ⟨-, -, -, rfl⟩ | ⟨-, -, -, -, rfl⟩ | ⟨-, -, -, -, rfl⟩ :=
    execExtract_cases h <;> simp [frame]

/-- A command changes nothing but STATUS, the result registers and memory (10_state.md R35, R37). -/
theorem exec_frame {i : Instr} {s t : State} (h : exec i s = .next t) : frame s t := by
  cases i with
  | benc => exact execBenc_frame h
  | bdec => exact execBdec_frame h
  | embed => exact execEmbed_frame h
  | extract => exact execExtract_frame h

theorem execute_frame {s t : State} (h : execute s = .next t) : frame s t := by
  obtain ⟨i, -, hexec⟩ | ⟨-, rfl⟩ := execute_cases h
  · exact exec_frame hexec
  · simp [frame]

theorem engineTurn_frame {s t : State} (h : engineTurn s = .next t) : frame s t := by
  obtain ⟨-, rfl⟩ | ⟨-, v, hv, rfl⟩ := engineTurn_cases h
  · simp [frame]
  · simpa [frame] using execute_frame hv

theorem engineTurn_env {s t : State} (h : engineTurn s = .next t) : t.env = s.env := by
  obtain ⟨-, -, -, -, henv⟩ := engineTurn_frame h
  exact henv

/-- After the engine's turn no command is in flight (20_memory.md R60). -/
theorem engineTurn_idle {s t : State} (h : engineTurn s = .next t) : t.status.busy = false := by
  obtain ⟨hidle, rfl⟩ | ⟨-, v, -, rfl⟩ := engineTurn_cases h
  · exact hidle
  · simp

/-! ### The host's turn leaves the turns still to come alone -/

@[simp] theorem writeReg_env (r : Reg) (v : Word) (s : State) : (writeReg r v s).env = s.env := by
  unfold writeReg
  split
  · cases r <;> rfl
  · cases r <;> rfl

@[simp] theorem assertReset_script (s : State) : (assertReset s).env.script = s.env.script := by
  simp [assertReset, drawBytes_env]

theorem transact_script (tr : Transaction) (s : State) : (transact tr s).1.env.script = s.env.script := by
  obtain h | ⟨_, _, _, -, -, h⟩ | ⟨-, h, -⟩ | ⟨_, _, _, -, -, -, h⟩ | ⟨-, h⟩ := transact_cases tr s <;> simp [h]

theorem hostTurn_script (tr : Transaction) (s : State) : (hostTurn tr s).env.script = s.env.script :=
  transact_script tr s

/-! ### One step of the script -/

/-- A step uses up the first turn of the script (log entry 1). -/
theorem step_script {s t : State} (h : step s = .next t) : t.env.script = s.env.script.tail := by
  obtain ⟨u, hu, hturn⟩ | ⟨tr, ts, hs, rfl⟩ := step_cases h
  · rw [engineTurn_env hturn]
    obtain ⟨hs, rfl⟩ | ⟨ts, hs, rfl⟩ := hu <;> simp [hs]
  · simp [hostTurn_script, hs]

/-- With the script used up the turn is the engine's, and it leaves the block idle. -/
theorem step_idle_of_script_nil {s t : State} (hs : s.env.script = []) (h : step s = .next t) :
    t.status.busy = false := by
  obtain ⟨u, -, hturn⟩ | ⟨tr, ts, hhost, -⟩ := step_cases h
  · exact engineTurn_idle hturn
  · simp [hs] at hhost

/-! ### Running the script out -/

/-- Said of any machine, so that `Host.Core.run` unfolds at the machine's own state type. -/
theorem run_succ_of_step {M : Host.Core} {s t : M.State} (h : M.step s = .next t) (k : Nat) :
    M.run (k + 1) s = M.run k t := by
  rw [Host.Core.run, h]

/-- The turns of the script are taken one by one; the step after the last is the engine's. -/
theorem run_script_idle (ts : List Turn) (s : State) (hs : s.env.script = ts) :
    ∃ t : State, Host.Core.run Sys2Proof.core (ts.length + 1) s = .next t ∧
      t.status.busy = false ∧ t.env.script = [] := by
  induction ts generalizing s with
  | nil =>
    obtain ⟨u, hu⟩ := step_next s
    exact ⟨u, run_succ_of_step (M := Sys2Proof.core) hu 0, step_idle_of_script_nil hs hu,
      by rw [step_script hu, hs, List.tail_nil]⟩
  | cons turn ts ih =>
    obtain ⟨u, hu⟩ := step_next s
    obtain ⟨t, hrun, hend⟩ := ih u (by rw [step_script hu, hs, List.tail_cons])
    exact ⟨t, (run_succ_of_step (M := Sys2Proof.core) hu _).trans hrun, hend⟩

/-- Settles O54, by induction on the turns of the script. -/
theorem everyCommandCompletes : Obligations.EveryCommandCompletes :=
  fun s => run_script_idle s.env.script s rfl

end Sys2Proof.Proofs
end

section
/-! What a turn can do, said once: the flags a command leaves alone, each effect a host transaction can have (20_memory.md
R57 to R62), and the step by who has the turn (R63). -/

namespace Sys2Proof.Proofs

open Sys2Proof.Machine Sys2Proof.Claims

/-! ### The flags a command leaves alone -/

/-- BUSY, DONE and HAZ are as before (10_state.md R37). -/
def flagsKept (s t : State) : Prop :=
  t.status.busy = s.status.busy ∧ t.status.done = s.status.done ∧ t.status.haz = s.status.haz

theorem execBenc_flags {s t : State} (h : execBenc s = .next t) : flagsKept s t := by
  obtain ⟨-, rfl⟩ | ⟨-, -, -, rfl⟩ | ⟨-, -, -, rfl⟩ := execBenc_cases h <;> simp [flagsKept]

theorem execBdec_flags {s t : State} (h : execBdec s = .next t) : flagsKept s t := by
  obtain ⟨-, rfl⟩ | ⟨-, -, -, rfl⟩ | ⟨-, -, -, -, rfl⟩ | ⟨-, -, -, _, -, rfl⟩ := execBdec_cases h <;> simp [flagsKept]

theorem execEmbed_flags {s t : State} (h : execEmbed s = .next t) : flagsKept s t := by
  obtain ⟨-, rfl⟩ | ⟨-, -, -, rfl⟩ | ⟨-, -, -, -, rfl⟩ | ⟨-, -, -, -, -, -, rfl⟩ | ⟨-, -, -, -, -, rfl⟩ :=
    execEmbed_cases h <;> simp [flagsKept]

theorem execExtract_flags {s t : State} (h : execExtract s = .next t) : flagsKept s t := by
  obtain ⟨-, rfl⟩ | ⟨-, -, rfl⟩ | ⟨-, -, -, rfl⟩ | ⟨-, -, -, rfl⟩ | ⟨-, -, -, -, rfl⟩ | ⟨-, -, -, -, rfl⟩ :=
    execExtract_cases h <;> simp [flagsKept]

theorem exec_flags {i : Instr} {s t : State} (h : exec i s = .next t) : flagsKept s t := by
  cases i with
  | benc => exact execBenc_flags h
  | bdec => exact execBdec_flags h
  | embed => exact execEmbed_flags h
  | extract => exact execExtract_flags h

theorem execute_flags {s t : State} (h : execute s = .next t) : flagsKept s t := by
  obtain ⟨i, -, hexec⟩ | ⟨-, rfl⟩ := execute_cases h
  · exact exec_flags hexec
  · simp [flagsKept]

/-- The completion step sets and clears no hazard flag (20_memory.md R60). -/
theorem engineTurn_haz {s t : State} (h : engineTurn s = .next t) : t.status.haz = s.status.haz := by
  obtain ⟨-, rfl⟩ | ⟨-, v, hv, rfl⟩ := engineTurn_cases h
  · rfl
  · obtain ⟨-, -, hhaz⟩ := execute_flags hv
    exact hhaz

theorem execute_of_cmd {s : State} {i : Instr} (h : s.cmd = encode i) : execute s = exec i s := by
  rw [execute, h, decode_encode]

/-- No command has an illegal word (30_encoding.md R74). -/
theorem ne_encode_of_illegalWord {w : Word} (h : illegalWord w) (i : Instr) : w ≠ encode i := by
  rintro rfl
  unfold illegalWord at h
  cases i <;> exact absurd h (by decide)

theorem execute_of_illegalWord {s : State} (h : illegalWord s.cmd) : execute s = .next (raise .illegalCmd s) := by
  obtain ⟨r, hr⟩ := decode_error (ne_encode_of_illegalWord h)
  rw [execute, hr]

/-! ### Offsets and registers -/

/-- An aligned offset that is not reserved is its register's (10_state.md R20). -/
theorem eq_regOffset {o : Fin 64} (ha : o.val % 4 = 0) (hr : regOfOffset o ≠ .reserved) :
    o = regOffset (regOfOffset o) := by decide +revert

/-- An aligned offset is the offset of a register of the map, or a reserved one (10_state.md R20, R34). -/
theorem aligned_offset_cases {o : Fin 64} (ha : o.val % 4 = 0) :
    (∃ r, r ≠ .reserved ∧ o = regOffset r) ∨ (0x30 ≤ o.val ∧ regOfOffset o = .reserved) := by
  by_cases hr : regOfOffset o = .reserved
  · exact .inr ⟨by decide +revert, hr⟩
  · exact .inl ⟨_, hr, eq_regOffset ha hr⟩

theorem regOfOffset_ne_status {o : Fin 64} (ha : o.val % 4 = 0) (ho : o.val ≠ 0x08) : regOfOffset o ≠ .status := by
  intro hr
  have heq : o = regOffset .status := hr ▸ eq_regOffset ha (by simp [hr])
  exact ho (congrArg Fin.val heq)

/-! ### Register writes -/

theorem writeReg_status (v : Word) (s : State) : writeReg .status v s = ackStatus v s := by
  unfold writeReg
  split <;> rfl

theorem writeReg_busy {s : State} {r : Reg} (v : Word) (hb : s.status.busy = true) (hr : r ≠ .status) :
    writeReg r v s = setHaz s := by
  rw [writeReg, if_pos hb, writeRegBusy]
  exact hr

theorem writeReg_idle {s : State} (r : Reg) (v : Word) (hb : s.status.busy = false) :
    writeReg r v s = writeRegIdle r v s := by
  simp [writeReg, hb]

/-- A register write looks only at BUSY, so the environment may be replaced before or after it. -/
theorem writeReg_withScript (r : Reg) (v : Word) (s : State) (ts : List Turn) :
    writeReg r v (s.withScript ts) = (writeReg r v s).withScript ts := by
  unfold writeReg
  rw [State.withScript_status]
  split <;> cases r <;> rfl

/-! ### The effects of a host transaction -/

/-- The transactions that are a hazard while BUSY (20_memory.md R61, R62). -/
def isHazard (s : State) : Transaction → Prop
  | .regWrite w o _ => w = 32 ∧ o.val % 4 = 0 ∧ o.val ≠ 0x08
  | .bufRead w a => w = 8 ∧ a < s.params.memBytes
  | .bufWrite w a _ => w = 8 ∧ a < s.params.memBytes
  | .regRead _ _ => False
  | .reset => False

/-- What a host transaction can do to the block (20_memory.md R57 to R62, 70_reset_and_hazards.md R170). -/
inductive HostEffect (s : State) : Transaction → State → Prop
  /-- A read, an access with a bus error, or a write that is ignored. -/
  | keep (tr : Transaction) : HostEffect s tr s
  /-- A write to STATUS. -/
  | ack (v : Word) : HostEffect s (.regWrite 32 0x08 v) (ackStatus v s)
  /-- A hazard while BUSY. -/
  | haz (tr : Transaction) (hb : s.status.busy = true) (hz : isHazard s tr) : HostEffect s tr (setHaz s)
  /-- A write to CMD while idle. -/
  | start (v : Word) (hb : s.status.busy = false) : HostEffect s (.regWrite 32 0x04 v) (startCommand v s)
  /-- A write to CTRL or to an operand register while idle. -/
  | store (tr : Transaction) (c : Ctrl) (o : OperandRegs) (hb : s.status.busy = false) :
    HostEffect s tr { s with ctrl := c, operands := o }
  /-- A buffer write while idle. -/
  | write (tr : Transaction) (a : Nat) (v : Byte) (hb : s.status.busy = false) (ha : a < s.params.memBytes) :
    HostEffect s tr (memWrite s a v)
  | reset : HostEffect s .reset (assertReset s)

/-- A register write has one of the effects above (20_memory.md R57, R61). -/
theorem hostEffect_writeReg {s : State} {o : Fin 64} (v : Word) (ha : o.val % 4 = 0) :
    HostEffect s (.regWrite 32 o v) (writeReg (regOfOffset o) v s) := by
  by_cases ho : o = 0x08
  · subst ho
    exact writeReg_status v s ▸ .ack v
  · have ho' : o.val ≠ 0x08 := fun h => ho (Fin.ext h)
    cases hb : s.status.busy with
    | true => exact writeReg_busy v hb (regOfOffset_ne_status ha ho') ▸ .haz _ hb ⟨rfl, ha, ho'⟩
    | false =>
      rw [writeReg_idle _ v hb]
      cases hr : regOfOffset o with
      | status => exact absurd hr (regOfOffset_ne_status ha ho')
      | cmd =>
        have hcmd : o = 0x04 := by rw [eq_regOffset ha (by simp [hr]), hr]; rfl
        exact hcmd ▸ .start v hb
      | ctrl => exact .store _ (ctrlOfWord v) s.operands hb
      | src | slen | dst | grid | gw | gh => exact .store _ s.ctrl _ hb
      | rlen | hdr | bitcnt | reserved => exact .keep _

/-- Every transaction has one of the effects above. -/
theorem hostEffect_transact (tr : Transaction) (s : State) : HostEffect s tr (transact tr s).1 := by
  obtain h | ⟨w, o, v, rfl, hok, h⟩ | ⟨hb, h, hz⟩ | ⟨w, a, v, rfl, hok, hb, h⟩ | ⟨rfl, h⟩ := transact_cases tr s <;>
    rw [h]
  · exact .keep tr
  · obtain ⟨rfl, ha⟩ := regAccessOk_iff.mp hok
    exact hostEffect_writeReg v ha
  · obtain ⟨w, a, rfl, hok⟩ | ⟨w, a, v, rfl, hok⟩ := hz <;> exact .haz _ hb (bufAccessOk_iff.mp hok)
  · exact .write _ a v hb (bufAccessOk_iff.mp hok).2
  · exact .reset

/-- While BUSY every hazard sets HAZ and does nothing else (20_memory.md R61, R62). -/
theorem transact_of_isHazard {s : State} {tr : Transaction} (hb : s.status.busy = true) (hz : isHazard s tr) :
    (transact tr s).1 = setHaz s := by
  cases tr with
  | regWrite w o v =>
    obtain ⟨hw, ha, ho⟩ := hz
    rw [transact, if_pos (regAccessOk_iff.mpr ⟨hw, ha⟩)]
    exact writeReg_busy v hb (regOfOffset_ne_status ha ho)
  | bufRead w a => rw [transact, if_pos (bufAccessOk_iff.mpr hz), if_pos hb]
  | bufWrite w a v => rw [transact, if_pos (bufAccessOk_iff.mpr hz), if_pos hb]
  | regRead w o => exact hz.elim
  | reset => exact hz.elim

/-! ### The step, by who has the turn -/

theorem step_of_hostNext {s : State} {tr : Transaction} {ts : List Turn} (h : hostNext s tr ts) :
    step s = .next (hostTurn tr (s.withScript ts)) := by
  unfold hostNext at h
  simp only [step, h]

theorem step_of_engineNext {s u : State} (h : engineNext s u) : step s = engineTurn u := by
  obtain ⟨hs, rfl⟩ | ⟨ts, hs, rfl⟩ := h <;> simp only [step, hs]

/-- The state the engine's turn is taken in is the state before the step, but for the script. -/
theorem engineNext_eq {s u : State} (h : engineNext s u) : ∃ e, u = { s with env := e } := by
  obtain ⟨-, rfl⟩ | ⟨ts, -, rfl⟩ := h
  · exact ⟨u.env, rfl⟩
  · exact ⟨_, rfl⟩

/-- A step is the engine's turn, or a host transaction with one of its effects, noted in the history. -/
theorem step_effect {s t : State} (h : step s = .next t) :
    (∃ u, engineNext s u ∧ engineTurn u = .next t) ∨
    ∃ tr ts t' r, hostNext s tr ts ∧ HostEffect (s.withScript ts) tr t' ∧ t = record tr r t' := by
  obtain ⟨u, hu, hturn⟩ | ⟨tr, ts, hs, rfl⟩ := step_cases h
  · exact .inl ⟨u, hu, hturn⟩
  · exact .inr ⟨tr, ts, _, _, hs, hostEffect_transact tr _, rfl⟩

/-- A register read at an aligned offset is answered with the register, busy or idle (20_memory.md R57, R61). -/
theorem step_regRead {s : State} {o : Fin 64} {ts : List Turn} (ha : o.val % 4 = 0)
    (h : hostNext s (.regRead 32 o) ts) :
    step s = .next { s with
      env := answered s ts (.regRead 32 o) (.regData (readReg s (regOfOffset o))) } := by
  have hread : readReg (s.withScript ts) (regOfOffset o) = readReg s (regOfOffset o) := by
    cases regOfOffset o <;> rfl
  rw [step_of_hostNext h, hostTurn, transact, if_pos (regAccessOk_iff.mpr ⟨rfl, ha⟩), hread]
  rfl

/-- A register write at an aligned offset does what the register's rule gives and is accepted (20_memory.md R57, R61). -/
theorem step_regWrite {s : State} {o : Fin 64} {v : Word} {ts : List Turn} (ha : o.val % 4 = 0)
    (h : hostNext s (.regWrite 32 o v) ts) :
    step s = .next { writeReg (regOfOffset o) v s with
      env := answered s ts (.regWrite 32 o v) .accepted } := by
  rw [step_of_hostNext h, hostTurn, transact, if_pos (regAccessOk_iff.mpr ⟨rfl, ha⟩), writeReg_withScript]
  simp only [record, State.withScript, writeReg_env, answered]

end Sys2Proof.Proofs
end

section
/-! The invariant of the block: what each part of it asks, that every way a command ends keeps it (40_bitcodec.md R91, R94,
41_steganographer.md R110, R120), and that a reset and every host transaction keep it. -/

namespace Sys2Proof.Proofs

open Sys2Proof.Machine Sys2Proof.Claims

/-! ### The memory part -/

theorem memOk_iff {s : State} :
    s.memOk = true ↔ Memory.wf s.mem = true ∧ Memory.below s.params.memBytes s.mem = true := by
  simp [State.memOk]

theorem memWrite_memOk {s : State} {a : Nat} (v : Byte) (ha : a < s.params.memBytes) (h : s.memOk = true) :
    (memWrite s a v).memOk = true := by
  obtain ⟨hwf, hbelow⟩ := memOk_iff.mp h
  exact memOk_iff.mpr ⟨Memory.wf_write a v hwf, Memory.below_write v ha hbelow⟩

theorem writeBytes_memOk {s : State} {b : Nat} {vs : List Byte} (hr : inRange s b vs.length = true)
    (h : s.memOk = true) : (writeBytes s b vs).memOk = true := by
  obtain ⟨hwf, hbelow⟩ := memOk_iff.mp h
  refine memOk_iff.mpr ⟨writeBytes_wf b vs hwf, ?_⟩
  rw [writeBytes_params]
  exact writeBytes_below (inRange_iff.mp hr).symm hbelow

/-- Stream bits written to no more than `p` pixels stay in a grid of `p` pixels. -/
theorem writeLsbs_memOk {s : State} {g p : Nat} {bs : Bits} (hr : inRange s g (4 * p) = true) (hl : bs.length ≤ p)
    (h : s.memOk = true) : (writeLsbs s g 0 bs).memOk = true := by
  obtain ⟨hwf, hbelow⟩ := memOk_iff.mp h
  refine memOk_iff.mpr ⟨writeLsbs_wf g 0 bs hwf, ?_⟩
  rw [writeLsbs_params]
  refine writeLsbs_below (fun i hi => ?_) hbelow
  have := inRange_iff.mp hr
  unfold red
  omega

theorem drawBytes_memOk {s : State} {as : List Nat} (ha : ∀ a ∈ as, a < s.params.memBytes) (h : s.memOk = true) :
    (drawBytes s as).memOk = true := by
  obtain ⟨hwf, hbelow⟩ := memOk_iff.mp h
  refine memOk_iff.mpr ⟨drawBytes_wf as hwf, ?_⟩
  rw [drawBytes_params]
  exact drawBytes_below ha hbelow

/-! ### Every command keeps memory canonical and inside the buffer -/

theorem execBenc_memOk {s t : State} (h : execBenc s = .next t) (hm : s.memOk = true) : t.memOk = true := by
  obtain ⟨-, rfl⟩ | ⟨-, -, -, rfl⟩ | ⟨-, hdst, -, rfl⟩ := execBenc_cases h
  · exact hm
  · exact hm
  · exact writeBytes_memOk (vs := (bitEncode (sourceBytes s)).map symbol) (by simpa using hdst) hm

/-- A symbol string that parses has one digit for each symbol (40_bitcodec.md R95). -/
theorem length_of_parseSymbols {s : State} {digits : Bits} (h : parseSymbols (sourceBytes s) = some digits) :
    digits.length = srcLen s := by
  rw [← sourceBytes_length s, parseSymbols_eq_some.mp h, List.length_map]

theorem execBdec_memOk {s t : State} (h : execBdec s = .next t) (hm : s.memOk = true) : t.memOk = true := by
  obtain ⟨-, rfl⟩ | ⟨-, -, -, rfl⟩ | ⟨-, -, -, -, rfl⟩ | ⟨-, hdst, -, digits, hparse, rfl⟩ := execBdec_cases h
  · exact hm
  · exact hm
  · exact hm
  · exact writeBytes_memOk (vs := bitDecode digits) (by simpa [length_of_parseSymbols hparse] using hdst) hm

theorem execEmbed_memOk {s t : State} (h : execEmbed s = .next t) (hm : s.memOk = true) : t.memOk = true := by
  obtain ⟨-, rfl⟩ | ⟨-, -, -, rfl⟩ | ⟨-, -, -, -, rfl⟩ | ⟨-, -, -, -, -, -, rfl⟩ | ⟨-, hgrid, -, -, -, rfl⟩ :=
    execEmbed_cases h
  · exact hm
  · exact hm
  · exact hm
  · exact hm
  · exact writeLsbs_memOk (s := setHdr s (8 * srcLen s)) hgrid (List.length_take_le _ _) hm

theorem execExtract_memOk {s t : State} (h : execExtract s = .next t) (hm : s.memOk = true) : t.memOk = true := by
  obtain ⟨-, rfl⟩ | ⟨-, -, rfl⟩ | ⟨-, -, -, rfl⟩ | ⟨-, -, -, rfl⟩ | ⟨-, -, -, -, rfl⟩ | ⟨-, -, hdst, -, rfl⟩ :=
    execExtract_cases h
  · exact hm
  · exact hm
  · exact hm
  · exact hm
  · exact hm
  · exact writeBytes_memOk (s := setBitcnt (setHdr s (headerValue s)) (16 + headerValue s))
      (vs := bitDecode (readLsbs s (gridAddr s) 16 (headerValue s))) (by simpa [inRange] using hdst) hm

theorem exec_memOk {i : Instr} {s t : State} (h : exec i s = .next t) (hm : s.memOk = true) : t.memOk = true := by
  cases i with
  | benc => exact execBenc_memOk h hm
  | bdec => exact execBdec_memOk h hm
  | embed => exact execEmbed_memOk h hm
  | extract => exact execExtract_memOk h hm

/-! ### Every command leaves in the result registers what its result code says (60_exceptions.md R140) -/

/-- Cleared result registers agree with every code but PAYLOAD_TRUNC, which comes with BITCNT at least 16. -/
theorem agree_zero {e : ErrCode} (h : e ≠ .payloadTrunc) : ResultRegs.agree .zero e = true := by
  cases e with
  | payloadTrunc => contradiction
  | _ => decide

/-! The numbers EXTRACT records fit their registers (10_state.md R32, R33). -/

theorem headerValue_mod (s : State) : headerValue s % 65536 = headerValue s := Nat.mod_eq_of_lt (headerValue_lt s)

theorem headerBits_mod (s : State) : (16 + headerValue s) % 4294967296 = 16 + headerValue s :=
  Nat.mod_eq_of_lt (by have := headerValue_lt s; omega)

theorem pixelCount_mod (s : State) : pixelCount s % 4294967296 = pixelCount s :=
  Nat.mod_eq_of_lt (by have := pixelCount_le s; omega)

section
variable {s t : State} (hz : s.results = .zero) (he : s.status.errcode = .none)
include hz he

theorem execBenc_agree (h : execBenc s = .next t) : t.results.agree t.status.errcode = true := by
  obtain ⟨-, rfl⟩ | ⟨-, -, -, rfl⟩ | ⟨-, -, -, rfl⟩ := execBenc_cases h
  · simp [hz, agree_zero]
  · simp [hz, agree_zero]
  · simp [he, ResultRegs.agree]

theorem execBdec_agree (h : execBdec s = .next t) : t.results.agree t.status.errcode = true := by
  obtain ⟨-, rfl⟩ | ⟨-, -, -, rfl⟩ | ⟨-, -, -, -, rfl⟩ | ⟨-, -, -, _, -, rfl⟩ := execBdec_cases h
  · simp [hz, agree_zero]
  · simp [hz, agree_zero]
  · simp [hz, agree_zero]
  · simp [he, ResultRegs.agree]

theorem execEmbed_agree (h : execEmbed s = .next t) : t.results.agree t.status.errcode = true := by
  obtain ⟨-, rfl⟩ | ⟨-, -, -, rfl⟩ | ⟨-, -, -, -, rfl⟩ | ⟨-, -, -, -, -, -, rfl⟩ | ⟨-, -, -, -, -, rfl⟩ :=
    execEmbed_cases h
  · simp [hz, agree_zero]
  · simp [hz, agree_zero]
  · simp [hz, agree_zero]
  · simp [hz, ResultRegs.agree, ResultRegs.zero]
  · simp [he, ResultRegs.agree]

theorem execExtract_agree (h : execExtract s = .next t) : t.results.agree t.status.errcode = true := by
  obtain ⟨-, rfl⟩ | ⟨-, hp, rfl⟩ | ⟨-, hp, hlen, rfl⟩ | ⟨-, -, -, rfl⟩ | ⟨-, -, -, -, rfl⟩ | ⟨-, -, -, -, rfl⟩ :=
    execExtract_cases h
  · simp [hz, agree_zero]
  · simp [hz, ResultRegs.agree, ResultRegs.zero, pixelCount_mod, hp]
  · have hshort : pixelCount s < 16 + headerValue s := by omega
    simp [hz, ResultRegs.agree, ResultRegs.zero, pixelCount_mod, headerValue_mod, hp, hshort]
  · simp [hz, ResultRegs.agree, ResultRegs.zero, headerBits_mod, headerValue_mod]
  · simp [hz, ResultRegs.agree, ResultRegs.zero, headerBits_mod, headerValue_mod]
  · simp [he, ResultRegs.agree]

theorem exec_agree {i : Instr} (h : exec i s = .next t) : t.results.agree t.status.errcode = true := by
  cases i with
  | benc => exact execBenc_agree hz he h
  | bdec => exact execBdec_agree hz he h
  | embed => exact execEmbed_agree hz he h
  | extract => exact execExtract_agree hz he h

end

/-! ### A reset draws bytes of the buffer only (70_reset_and_hazards.md R172) -/

/-- The abandoned set is the write set of a command that would have completed. -/
theorem mem_abandonedSet {s : State} {a : Nat} (h : a ∈ abandonedSet s) :
    ∃ i t, s.cmd = encode i ∧ exec i s = .next t ∧ t.status.errcode = .none ∧ a ∈ writeSet i s := by
  unfold abandonedSet at h
  split at h
  · split at h
    · next i hdecode =>
      obtain ⟨t, ht⟩ := exec_next i s
      simp only [ht] at h
      split at h
      · next he => exact ⟨i, t, decode_eq_ok.mp hdecode, ht, he, h⟩
      · simp at h
    · simp at h
  · simp at h

/-- A command that completes has passed its region checks, so its write set lies in the buffer. -/
theorem writeSet_lt {i : Instr} {s t : State} (h : exec i s = .next t) (he : t.status.errcode = .none) {a : Nat}
    (ha : a ∈ writeSet i s) : a < s.params.memBytes := by
  cases i with
  | benc =>
    obtain ⟨-, rfl⟩ | ⟨-, -, -, rfl⟩ | ⟨-, hdst, -, -⟩ := execBenc_cases h
    · simp at he
    · simp at he
    · obtain ⟨k, hk, rfl⟩ := by simpa [writeSet] using ha
      have := inRange_iff.mp hdst
      omega
  | bdec =>
    obtain ⟨-, rfl⟩ | ⟨-, -, -, rfl⟩ | ⟨-, -, -, -, rfl⟩ | ⟨-, hdst, -, -⟩ := execBdec_cases h
    · simp at he
    · simp at he
    · simp at he
    · obtain ⟨k, hk, rfl⟩ := by simpa [writeSet] using ha
      have := inRange_iff.mp hdst
      omega
  | embed =>
    obtain ⟨-, rfl⟩ | ⟨-, -, -, rfl⟩ | ⟨-, -, -, -, rfl⟩ | ⟨-, -, -, -, -, -, rfl⟩ | ⟨-, hgrid, -⟩ :=
      execEmbed_cases h
    · simp at he
    · simp at he
    · simp at he
    · simp at he
    · obtain ⟨k, hk, rfl⟩ := by simpa [writeSet, embedCount] using ha
      have := inRange_iff.mp hgrid
      unfold red
      omega
  | extract =>
    obtain ⟨-, rfl⟩ | ⟨-, -, rfl⟩ | ⟨-, -, -, rfl⟩ | ⟨-, -, -, rfl⟩ | ⟨-, -, -, -, rfl⟩ | ⟨-, -, hdst, -⟩ :=
      execExtract_cases h
    · simp at he
    · simp at he
    · simp at he
    · simp at he
    · simp at he
    · obtain ⟨k, hk, rfl⟩ := by simpa [writeSet] using ha
      have := inRange_iff.mp hdst
      omega

theorem abandonedSet_lt {s : State} {a : Nat} (h : a ∈ abandonedSet s) : a < s.params.memBytes := by
  obtain ⟨i, t, -, ht, he, ha⟩ := mem_abandonedSet h
  exact writeSet_lt ht he ha

theorem assertReset_memOk {s : State} (h : s.memOk = true) : (assertReset s).memOk = true :=
  drawBytes_memOk (fun _ => abandonedSet_lt) h

/-! ### The invariant -/

theorem startedClean_iff {s : State} : s.startedClean = true ↔
    (s.status.busy = true → s.status.done = false ∧ s.status.errcode = .none ∧ s.results = .zero) := by
  cases hb : s.status.busy <;> simp [State.startedClean, hb, and_assoc]

theorem inv_iff {s : State} : s.inv = true ↔ s.params.wf = true ∧ s.memOk = true ∧
    (s.status.busy = true → s.status.done = false ∧ s.status.errcode = .none ∧ s.results = .zero) ∧
    s.results.agree s.status.errcode = true := by
  rw [← startedClean_iff]
  simp [State.inv, and_assoc]

/-- The completion step keeps the invariant (20_memory.md R60): the command started from cleared result registers. -/
theorem engineTurn_inv {s t : State} (h : engineTurn s = .next t) (hinv : s.inv = true) : t.inv = true := by
  obtain ⟨-, rfl⟩ | ⟨hb, v, hv, rfl⟩ := engineTurn_cases h
  · exact hinv
  · obtain ⟨hparams, hmem, hclean, -⟩ := inv_iff.mp hinv
    obtain ⟨-, he, hz⟩ := hclean hb
    obtain ⟨hp, -⟩ := execute_frame hv
    have hend : v.memOk = true ∧ v.results.agree v.status.errcode = true := by
      obtain ⟨i, -, hexec⟩ | ⟨-, rfl⟩ := execute_cases hv
      · exact ⟨exec_memOk hexec hmem, exec_agree hz he hexec⟩
      · exact ⟨hmem, by simp [hz, agree_zero]⟩
    exact inv_iff.mpr ⟨by rwa [finish_params, hp], hend.1, by simp, hend.2⟩

/-- Every effect of a host transaction keeps the invariant. -/
theorem hostEffect_inv {s t : State} {tr : Transaction} (h : HostEffect s tr t) (hinv : s.inv = true) :
    t.inv = true := by
  obtain ⟨hparams, hmem, hclean, hagree⟩ := inv_iff.mp hinv
  cases h with
  | keep => exact hinv
  | ack v =>
    refine inv_iff.mpr ⟨hparams, hmem, fun hb => ?_, hagree⟩
    obtain ⟨hd, he, hz⟩ := hclean hb
    exact ⟨by simp [hd], he, hz⟩
  | haz => exact inv_iff.mpr ⟨hparams, hmem, hclean, hagree⟩
  | start v => exact inv_iff.mpr ⟨hparams, hmem, fun _ => ⟨rfl, rfl, rfl⟩, rfl⟩
  | store => exact inv_iff.mpr ⟨hparams, hmem, hclean, hagree⟩
  | write _ a v _ ha => exact inv_iff.mpr ⟨hparams, memWrite_memOk v ha hmem, hclean, hagree⟩
  | reset =>
    exact inv_iff.mpr ⟨by simpa [assertReset] using hparams, assertReset_memOk hmem,
      by simp [assertReset, Status.zero], rfl⟩

/-- Settles O52, by the turn: the engine's completion, or one of the effects of a host transaction. -/
theorem stepKeepsInvariant : Obligations.StepKeepsInvariant := by
  intro s t hinv h
  obtain ⟨u, hu, hturn⟩ | ⟨tr, ts, t', r, -, heffect, rfl⟩ := step_effect h
  · obtain ⟨e, rfl⟩ := engineNext_eq hu
    exact engineTurn_inv hturn hinv
  · have hinv' := hostEffect_inv heffect hinv
    exact hinv'

end Sys2Proof.Proofs
end

section
/-! The registers and flags of the state (10_state.md R20 to R41): who can change them, and what the register port reads and
stores. -/

namespace Sys2Proof.Proofs

open Sys2Proof.Machine Sys2Proof.Claims

/-! ### What a step leaves unchanged -/

/-- Settles O7, from the frame and the flags of every command. -/
theorem commandsEndAndKeepOperands : Obligations.CommandsEndAndKeepOperands := by
  intro i s
  obtain ⟨t, ht⟩ := exec_next i s
  exact ⟨t, ht, exec_frame ht, exec_flags ht⟩

/-- Settles O46, which is extensionality of canonical memories. -/
theorem canonicalMemoryIsUnique : Obligations.CanonicalMemoryIsUnique := fun _ _ => Memory.ext

theorem hostEffect_params {s t : State} {tr : Transaction} (h : HostEffect s tr t) : t.params = s.params := by
  cases h with
  | reset => simp [assertReset]
  | _ => rfl

/-- Settles O53, by the turn. -/
theorem parametersNeverChange : Obligations.ParametersNeverChange := by
  intro s t h
  obtain ⟨u, hu, hturn⟩ | ⟨tr, ts, t', r, -, heffect, rfl⟩ := step_effect h
  · obtain ⟨e, rfl⟩ := engineNext_eq hu
    exact (engineTurn_frame hturn).1
  · have hparams := hostEffect_params heffect
    exact hparams

/-- While BUSY only a reset changes CMD, an operand register or CTRL (20_memory.md R61). -/
theorem hostEffect_operands {s t : State} {tr : Transaction} (h : HostEffect s tr t) (hb : s.status.busy = true)
    (hr : tr ≠ .reset) : t.cmd = s.cmd ∧ t.operands = s.operands ∧ t.ctrl = s.ctrl := by
  cases h with
  | keep | ack | haz => exact ⟨rfl, rfl, rfl⟩
  | start _ hidle | store _ _ _ hidle | write _ _ _ hidle => simp [hb] at hidle
  | reset => contradiction

/-- Settles O38, by the turn; the engine's runs the one command that CMD's word encodes. -/
theorem busyKeepsOperands : Obligations.BusyKeepsOperands := by
  refine ⟨fun s t hb hnoReset h => ?_, fun s u t i hu hb hcmd h => ?_⟩
  · obtain ⟨u, hu, hturn⟩ | ⟨tr, ts, t', r, hs, heffect, rfl⟩ := step_effect h
    · obtain ⟨e, rfl⟩ := engineNext_eq hu
      obtain ⟨-, hctrl, hcmd, hoperands, -⟩ := engineTurn_frame hturn
      exact ⟨hcmd, hoperands, hctrl⟩
    · have hkept := hostEffect_operands heffect hb fun hr => hnoReset ts (hr ▸ hs)
      exact hkept
  · rw [step_of_engineNext hu] at h
    obtain ⟨e, rfl⟩ := engineNext_eq hu
    obtain ⟨hidle, -⟩ | ⟨-, v, hv, rfl⟩ := engineTurn_cases h
    · simp [hb] at hidle
    · exact ⟨v, (execute_of_cmd (s := { s with env := e }) hcmd).symm.trans hv, rfl⟩

/-- Settles O39: of the effects of a turn, only the completion step, a command's start and a reset write them. -/
theorem resultsChangeOnlyByCommandOrReset : Obligations.ResultsChangeOnlyByCommandOrReset := by
  intro s t h hne
  obtain ⟨u, hu, hturn⟩ | ⟨tr, ts, t', r, hs, heffect, rfl⟩ := step_effect h
  · refine .inl ⟨?_, u, hu⟩
    obtain ⟨e, rfl⟩ := engineNext_eq hu
    obtain ⟨-, rfl⟩ | ⟨hb, -⟩ := engineTurn_cases hturn
    · exact absurd rfl hne
    · exact hb
  · cases heffect with
    | keep | ack | haz | store | write => exact absurd rfl hne
    | start v hidle => exact .inr (.inl ⟨hidle, v, ts, hs⟩)
    | reset => exact .inr (.inr ⟨ts, hs⟩)

/-- Settles O41: of the effects of a turn, only a command's start sets BUSY. -/
theorem onlyCmdWriteStartsCommand : Obligations.OnlyCmdWriteStartsCommand := by
  intro s t h hidle hbusy
  obtain ⟨u, -, hturn⟩ | ⟨tr, ts, t', r, hs, heffect, rfl⟩ := step_effect h
  · simp [engineTurn_idle hturn] at hbusy
  · cases heffect with
    | start v => exact ⟨v, ts, hs, rfl⟩
    | keep | ack | haz | store | write => simp [hidle] at hbusy
    | reset => simp [assertReset, Status.zero] at hbusy

/-! ### HAZ -/

/-- HAZ falls only by a write to STATUS with bit 2 set or by a reset (10_state.md R24). -/
theorem hostEffect_haz_falls {s t : State} {tr : Transaction} (h : HostEffect s tr t) (h1 : s.status.haz = true)
    (h0 : t.status.haz = false) :
    (∃ v : Word, v.getLsbD 2 = true ∧ tr = .regWrite 32 0x08 v) ∨ tr = .reset := by
  cases h with
  | ack v => exact .inl ⟨v, by simpa [h1] using h0, rfl⟩
  | reset => exact .inr rfl
  | keep | haz | start | store | write => simp [h1] at h0

/-- HAZ rises only by a hazard while BUSY (20_memory.md R61, R62). -/
theorem hostEffect_haz_rises {s t : State} {tr : Transaction} (h : HostEffect s tr t) (h0 : s.status.haz = false)
    (h1 : t.status.haz = true) : s.status.busy = true ∧ isHazard s tr := by
  cases h with
  | haz _ hb hz => exact ⟨hb, hz⟩
  | reset => simp [assertReset, Status.zero] at h1
  | keep | ack | start | store | write => simp [h0] at h1

/-- The hazards, as the register port and the buffer port see them (20_memory.md R61, R62). -/
theorem isHazard_iff {s : State} {tr : Transaction} : isHazard s tr ↔
    (∃ o v, o.val % 4 = 0 ∧ o.val ≠ 0x08 ∧ tr = .regWrite 32 o v) ∨
    (∃ a, a < s.params.memBytes ∧ tr = .bufRead 8 a) ∨ ∃ a v, a < s.params.memBytes ∧ tr = .bufWrite 8 a v := by
  constructor
  · intro hz
    cases tr with
    | regWrite w o v =>
      obtain ⟨rfl, ha, ho⟩ := hz
      exact .inl ⟨o, v, ha, ho, rfl⟩
    | bufRead w a =>
      obtain ⟨rfl, ha⟩ := hz
      exact .inr (.inl ⟨a, ha, rfl⟩)
    | bufWrite w a v =>
      obtain ⟨rfl, ha⟩ := hz
      exact .inr (.inr ⟨a, v, ha, rfl⟩)
    | regRead | reset => exact hz.elim
  · rintro (⟨o, v, ha, ho, rfl⟩ | ⟨a, ha, rfl⟩ | ⟨a, v, ha, rfl⟩)
    · exact ⟨rfl, ha, ho⟩
    · exact ⟨rfl, ha⟩
    · exact ⟨rfl, ha⟩

/-- A step whose turn is a hazard while BUSY sets HAZ. -/
theorem step_haz_of_isHazard {s t : State} {tr : Transaction} {ts : List Turn} (h : step s = .next t)
    (hs : hostNext s tr ts) (hb : s.status.busy = true) (hz : isHazard s tr) : t.status.haz = true := by
  rw [step_of_hostNext hs] at h
  cases h
  have heq : (transact tr (s.withScript ts)).1 = setHaz (s.withScript ts) := transact_of_isHazard hb hz
  simp [hostTurn, heq]

/-- Settles O40, by the turn: the engine's keeps HAZ, and a host transaction's effects say when it falls and rises. -/
theorem hazIsSticky : Obligations.HazIsSticky := by
  intro s t h
  have hrise : s.status.busy = true → ∀ tr ts, hostNext s tr ts → isHazard s tr → t.status.haz = true :=
    fun hb tr ts hs hz => step_haz_of_isHazard h hs hb hz
  refine ⟨fun h1 h0 => ?_, fun h0 => ⟨fun h1 => ?_, ?_⟩⟩
  · obtain ⟨u, hu, hturn⟩ | ⟨tr, ts, t', r, hs, heffect, rfl⟩ := step_effect h
    · obtain ⟨e, rfl⟩ := engineNext_eq hu
      simp [engineTurn_haz hturn, h1] at h0
    · obtain ⟨v, hv, rfl⟩ | rfl := hostEffect_haz_falls heffect h1 h0
      · exact .inl ⟨v, ts, hv, hs⟩
      · exact .inr ⟨ts, hs⟩
  · obtain ⟨u, hu, hturn⟩ | ⟨tr, ts, t', r, hs, heffect, rfl⟩ := step_effect h
    · obtain ⟨e, rfl⟩ := engineNext_eq hu
      simp [engineTurn_haz hturn, h0] at h1
    · obtain ⟨hb, hz⟩ := hostEffect_haz_rises heffect h0 h1
      refine ⟨hb, ?_⟩
      obtain ⟨o, v, ha, ho, rfl⟩ | ⟨a, ha, rfl⟩ | ⟨a, v, ha, rfl⟩ := isHazard_iff.mp hz
      · exact .inl ⟨o, v, ts, ha, ho, hs⟩
      · exact .inr (.inl ⟨a, ts, ha, hs⟩)
      · exact .inr (.inr ⟨a, v, ts, ha, hs⟩)
  · rintro ⟨hb, ⟨o, v, ts, ha, ho, hs⟩ | ⟨a, ts, ha, hs⟩ | ⟨a, v, ts, ha, hs⟩⟩
    · exact hrise hb _ ts hs ⟨rfl, ha, ho⟩
    · exact hrise hb _ ts hs ⟨rfl, ha⟩
    · exact hrise hb _ ts hs ⟨rfl, ha⟩

/-! ### The words registers read as -/

/-- The fields of an appended word stand at their bit positions. -/
theorem toNat_append_add {n m : Nat} (x : BitVec n) (y : BitVec m) : (x ++ y).toNat = x.toNat * 2 ^ m + y.toNat := by
  rw [BitVec.toNat_append, ← Nat.shiftLeft_add_eq_or_of_lt y.isLt, Nat.shiftLeft_eq]

/-- IE at bit 0, TRUNC_EN at bit 1 (10_state.md R21). -/
theorem ctrlWord_toNat (c : Ctrl) : (ctrlWord c).toNat = c.ie.toNat + 2 * c.truncEn.toNat := by
  simp only [ctrlWord, toNat_append_add, BitVec.toNat_ofBool, BitVec.toNat_ofNat]
  omega

/-- BUSY at bit 0, DONE at bit 1, HAZ at bit 2, ERRCODE at bits 11:8 (10_state.md R24). -/
theorem statusWord_toNat (t : Status) : (statusWord t).toNat =
    t.busy.toNat + 2 * t.done.toNat + 4 * t.haz.toNat + 256 * t.errcode.code.toNat := by
  simp only [statusWord, toNat_append_add, BitVec.toNat_ofBool, BitVec.toNat_ofNat]
  omega

/-- Settles O33, by the register at the offset; a reserved offset reads 0. -/
theorem registerReadsFollowTheMap : Obligations.RegisterReadsFollowTheMap := by
  intro s o ts ha hs
  refine ⟨_, step_regRead ha hs, ?_⟩
  obtain ⟨r, hr, rfl⟩ | ⟨ho, hr⟩ := aligned_offset_cases ha
  · rw [regOfOffset_regOffset]
    cases r with
    | ctrl => exact ctrlWord_toNat s.ctrl
    | status => exact statusWord_toNat s.status
    | gw | gh | hdr => exact BitVec.toNat_setWidth_of_le (by decide)
    | cmd | src | slen | dst | grid | rlen | bitcnt => rfl
    | reserved => contradiction
  · rw [hr]
    split
    case h_13 => rfl
    all_goals omega

/-- Settles O34, by the register at the offset; a reserved offset stores nothing. -/
theorem idleRegisterWrites : Obligations.IdleRegisterWrites := by
  intro s o v ts hidle ha hcmd hstatus hs
  rw [step_regWrite ha hs, writeReg_idle _ v hidle]
  obtain ⟨r, hr, rfl⟩ | ⟨ho, hr⟩ := aligned_offset_cases ha
  · rw [regOfOffset_regOffset]
    cases r with
    | cmd | status | reserved => contradiction
    | _ => simp [regOffset, writeRegIdle, setOperand, ctrlOfWord, BitVec.ofNat_toNat]
  · rw [hr]
    have hne (n : Nat) (hn : n < 0x30) : o.val ≠ n := by omega
    simp [writeRegIdle, hne]

/-- Settles O35, from the one rule for a write to STATUS, idle and busy. -/
theorem statusWriteClears : Obligations.StatusWriteClears := by
  intro s v ts hs
  rw [step_regWrite (by decide) hs, show regOfOffset 0x08 = .status from rfl, writeReg_status]
  rfl

/-- Settles O36, from the rules for a register write idle and busy, a register read, and an illegal word. -/
theorem cmdRegister : Obligations.CmdRegister := by
  refine ⟨fun s v ts hidle hs => ?_, fun s v ts hb hs => ?_, fun s ts hs => step_regRead (by decide) hs,
    fun s u hu hb hw => ?_, fun _ _ => rfl⟩
  · refine ⟨_, step_regWrite (by decide) hs, ?_⟩
    rw [writeReg_idle _ v hidle]
    exact ⟨rfl, rfl⟩
  · rw [step_regWrite (by decide) hs, writeReg_busy v hb (by decide)]
    rfl
  · obtain ⟨e, rfl⟩ := engineNext_eq hu
    obtain ⟨t, ht⟩ := engineTurn_next { s with env := e }
    refine ⟨t, (step_of_engineNext hu).trans ht, engineTurn_idle ht, ?_⟩
    obtain ⟨hidle, -⟩ | ⟨-, v, hv, rfl⟩ := engineTurn_cases ht
    · simp [hb] at hidle
    · cases (execute_of_illegalWord (s := { s with env := e }) hw).symm.trans hv
      rfl

end Sys2Proof.Proofs
end

section
/-! The memory and its two host ports (20_memory.md R50 to R65): what an access that gets a bus error, a buffer access and
a repeated write do, how a command starts, and which one the engine runs. -/

namespace Sys2Proof.Proofs

open Sys2Proof.Machine Sys2Proof.Claims

/-! ### The region checks -/

/-- Settles O32, from the model's laws about its two checks. -/
theorem regionChecks : Obligations.RegionChecks := ⟨fun _ _ _ => inRange_iff, fun _ _ _ _ => disjoint_iff⟩

/-! ### A command's start and the engine's turn -/

/-- The engine's turn while BUSY is the command that CMD decodes to, with its completion (20_memory.md R60). -/
theorem engineTurn_of_decode {s t : State} {i : Instr} (hb : s.status.busy = true) (hd : decode s.cmd = .ok i)
    (h : exec i s = .next t) : engineTurn s = .next (finish t) := by
  rw [engineTurn, if_pos hb, engineStep, execute_of_cmd (decode_eq_ok.mp hd), h]
  rfl

theorem step_of_decode {s u t : State} {i : Instr} (hu : engineNext s u) (hb : s.status.busy = true)
    (hd : decode s.cmd = .ok i) (h : exec i u = .next t) : step s = .next (finish t) := by
  rw [step_of_engineNext hu]
  obtain ⟨e, rfl⟩ := engineNext_eq hu
  exact engineTurn_of_decode hb hd h

/-- A placed word is run from the very state its command's start gives (20_memory.md R59; log entry 9). -/
theorem engineNext_withFetchWord (s : State) (nbits w : Nat) :
    engineNext (s.withFetchWord nbits w) (startCommand (tableWord nbits w) s) :=
  .inr ⟨s.env.script, rfl, rfl⟩

/-- Settles O5: a placed word is the case of an engine's turn right after a command's start. -/
theorem stepRunsDecodedCommand : Obligations.StepRunsDecodedCommand :=
  ⟨fun _ _ _ _ hu hb hd h => step_of_decode hu hb hd h,
   fun s _ _ nbits w hd h => step_of_decode (engineNext_withFetchWord s nbits w) rfl hd h⟩

/-- Settles O6, from the rule for a register write and CMD's rule while idle. -/
theorem commandStart : Obligations.CommandStart := by
  intro s ts v hidle hs
  refine ⟨_, step_regWrite (by decide) hs, ?_⟩
  rw [show regOfOffset 0x04 = .cmd from rfl, writeReg_idle _ v hidle]
  exact ⟨rfl, rfl⟩

/-! ### The register port while BUSY -/

/-- Settles O37, by the three kinds of access. -/
theorem registerAccessesWhileBusy : Obligations.RegisterAccessesWhileBusy := by
  intro s o v ts hb ha
  refine ⟨fun ho hs => ?_, fun ho hs => ?_, fun hs => step_regRead ha hs⟩
  · rw [step_regWrite ha hs, writeReg_busy v hb (regOfOffset_ne_status ha ho)]
    rfl
  · obtain rfl : o = 0x08 := Fin.ext ho
    exact statusWriteClears s v ts hs

/-! ### Accesses a port does not admit -/

/-- A bus error is the response and nothing more, at either port, busy or idle (60_exceptions.md R146). -/
theorem transact_of_badAccess {s : State} {tr : Transaction} (h : badAccess s tr) :
    transact tr s = (s, .busError) := by
  cases tr with
  | regRead w o | regWrite w o v => rw [transact, if_neg (by rw [regAccessOk_iff]; exact not_and_or.mpr h)]
  | bufRead w a | bufWrite w a v =>
    rw [transact, if_neg (by rw [bufAccessOk_iff, not_and_or, Nat.not_lt]; exact h)]
  | reset => exact h.elim

/-- The script has no part in which accesses are bad. -/
theorem badAccess_withScript {s : State} {tr : Transaction} (ts : List Turn) :
    badAccess (s.withScript ts) tr ↔ badAccess s tr := by
  cases tr <;> rfl

theorem step_of_badAccess {s : State} {tr : Transaction} {ts : List Turn} (h : badAccess s tr)
    (hs : hostNext s tr ts) : step s = .next { s with env := answered s ts tr .busError } := by
  rw [step_of_hostNext hs, hostTurn, transact_of_badAccess ((badAccess_withScript ts).mpr h)]
  rfl

/-! ### The buffer port -/

section
variable {s : State} {a : Nat} {ts : List Turn} (ha : a < s.params.memBytes)
include ha

/-- A buffer read that the port admits (20_memory.md R58, R62). -/
theorem transact_bufRead : transact (.bufRead 8 a) s =
    if s.status.busy then (setHaz s, .bufData 0x00) else (s, .bufData (memRead s a)) := by
  rw [transact, if_pos (bufAccessOk_iff.mpr ⟨rfl, ha⟩)]

/-- A buffer write that the port admits (20_memory.md R58, R62). -/
theorem transact_bufWrite (v : Byte) : transact (.bufWrite 8 a v) s =
    if s.status.busy then (setHaz s, .accepted) else (memWrite s a v, .accepted) := by
  rw [transact, if_pos (bufAccessOk_iff.mpr ⟨rfl, ha⟩)]

theorem step_bufRead_idle (hidle : s.status.busy = false) (hs : hostNext s (.bufRead 8 a) ts) :
    step s = .next { s with env := answered s ts (.bufRead 8 a) (.bufData (memRead s a)) } := by
  rw [step_of_hostNext hs, hostTurn, transact_bufRead (s := s.withScript ts) ha, State.withScript_status, hidle]
  rfl

theorem step_bufWrite_idle {v : Byte} (hidle : s.status.busy = false) (hs : hostNext s (.bufWrite 8 a v) ts) :
    step s = .next { memWrite s a v with env := answered s ts (.bufWrite 8 a v) .accepted } := by
  rw [step_of_hostNext hs, hostTurn, transact_bufWrite (s := s.withScript ts) ha, State.withScript_status, hidle]
  rfl

theorem step_bufRead_busy (hb : s.status.busy = true) (hs : hostNext s (.bufRead 8 a) ts) :
    step s = .next { setHaz s with env := answered s ts (.bufRead 8 a) (.bufData 0x00) } := by
  rw [step_of_hostNext hs, hostTurn, transact_bufRead (s := s.withScript ts) ha, State.withScript_status, hb]
  rfl

theorem step_bufWrite_busy {v : Byte} (hb : s.status.busy = true) (hs : hostNext s (.bufWrite 8 a v) ts) :
    step s = .next { setHaz s with env := answered s ts (.bufWrite 8 a v) .accepted } := by
  rw [step_of_hostNext hs, hostTurn, transact_bufWrite (s := s.withScript ts) ha, State.withScript_status, hb]
  rfl

end

/-- Settles O43, by the kind of access. -/
theorem bufferAccessesWhileBusy : Obligations.BufferAccessesWhileBusy :=
  fun _ _ _ _ hb ha => ⟨step_bufRead_busy ha hb, step_bufWrite_busy ha hb⟩

/-- Settles O42: a bad access, and each kind of admitted access idle and busy. A canonical memory reads back the byte
written and every other byte as before. -/
theorem bufferPort : Obligations.BufferPort := by
  intro s ts hwf
  refine ⟨fun _ _ hbad hs => step_of_badAccess hbad hs, fun _ _ _ hbad hs => step_of_badAccess hbad hs,
    fun _ ha hidle hs => step_bufRead_idle ha hidle hs, fun a v ha hidle hs => ?_,
    fun _ ha hb hs => step_bufRead_busy ha hb hs, fun _ _ ha hb hs => step_bufWrite_busy ha hb hs⟩
  exact ⟨memWrite s a v, step_bufWrite_idle ha hidle hs, rfl, fun x => Memory.read_write a v x hwf⟩

/-! ### Writes made again -/

theorem regOfOffset_ne_cmd {o : Fin 64} (ha : o.val % 4 = 0) (ho : o.val ≠ 0x04) : regOfOffset o ≠ .cmd := by
  intro hr
  have heq : o = regOffset .cmd := hr ▸ eq_regOffset ha (by simp [hr])
  exact ho (congrArg Fin.val heq)

/-- A flag that a write to STATUS cleared stays cleared by the same write (10_state.md R24). -/
theorem ackStatus_ackStatus (v : Word) (s : State) : ackStatus v (ackStatus v s) = ackStatus v s := by
  simp [ackStatus]

theorem writeRegIdle_status_busy {r : Reg} (v : Word) (s : State) (hr : r ≠ .cmd) :
    (writeRegIdle r v s).status.busy = s.status.busy := by
  cases r with
  | cmd => contradiction
  | _ => rfl

theorem writeRegIdle_writeRegIdle {r : Reg} (v : Word) (s : State) (hr : r ≠ .cmd) :
    writeRegIdle r v (writeRegIdle r v s) = writeRegIdle r v s := by
  cases r with
  | cmd => contradiction
  | status => exact ackStatus_ackStatus v s
  | _ => rfl

/-- A write to any register but CMD, made again, changes nothing more (20_memory.md R65). -/
theorem writeReg_writeReg {r : Reg} (v : Word) (s : State) (hr : r ≠ .cmd) :
    writeReg r v (writeReg r v s) = writeReg r v s := by
  cases hb : s.status.busy with
  | false => rw [writeReg_idle r v hb, writeReg_idle r v (by rw [writeRegIdle_status_busy v s hr, hb]),
      writeRegIdle_writeRegIdle v s hr]
  | true =>
    by_cases hstatus : r = .status
    · rw [hstatus, writeReg_status, writeReg_status, ackStatus_ackStatus]
    · rw [writeReg_busy v hb hstatus]
      exact writeReg_busy v (s := setHaz s) hb hstatus

/-- A byte written again leaves a canonical memory the same data: both memories are canonical and read alike. -/
theorem memWrite_memWrite {s : State} (a : Nat) (v : Byte) (h : Memory.wf s.mem = true) :
    memWrite (memWrite s a v) a v = memWrite s a v := by
  have hwf := Memory.wf_write a v h
  have hmem : Memory.write (Memory.write s.mem a v) a v = Memory.write s.mem a v := by
    refine Memory.ext (Memory.wf_write a v hwf) hwf fun x => ?_
    rw [Memory.read_write a v x hwf, Memory.read_write a v x h]
    split <;> rfl
  simp [memWrite, hmem]

/-- A bad access made again is refused again. -/
theorem transact_transact_of_badAccess {s : State} {tr : Transaction} (h : badAccess s tr) :
    transact tr (transact tr s).1 = transact tr s := by
  rw [transact_of_badAccess h, transact_of_badAccess h]

/-- A register write that the port admits (20_memory.md R57). -/
theorem transact_regWrite {o : Fin 64} (v : Word) (s : State) (ha : o.val % 4 = 0) :
    transact (.regWrite 32 o v) s = (writeReg (regOfOffset o) v s, .accepted) := by
  rw [transact, if_pos (regAccessOk_iff.mpr ⟨rfl, ha⟩)]

/-- Settles O45: an access is refused both times or admitted both times, and an admitted write made again finds its own
effect. -/
theorem hostWritesAreIdempotent : Obligations.HostWritesAreIdempotent := by
  refine ⟨fun s w o v hne => ?_, fun s w a v hwf => ?_⟩
  · by_cases hok : w = 32 ∧ o.val % 4 = 0
    · obtain ⟨rfl, ha⟩ := hok
      have hcmd : regOfOffset o ≠ .cmd := regOfOffset_ne_cmd ha fun ho => hne ⟨rfl, ho⟩
      rw [transact_regWrite v s ha, transact_regWrite v _ ha, writeReg_writeReg v s hcmd]
    · exact transact_transact_of_badAccess (not_and_or.mp hok)
  · by_cases hok : w = 8 ∧ a < s.params.memBytes
    · obtain ⟨rfl, ha⟩ := hok
      rw [transact_bufWrite ha]
      cases hb : s.status.busy with
      | true => exact (transact_bufWrite (s := setHaz s) ha v).trans (if_pos hb)
      | false =>
        have hagain := transact_bufWrite (s := memWrite s a v) ha v
        rwa [memWrite_status, hb, memWrite_memWrite a v hwf] at hagain
    · exact transact_transact_of_badAccess ((not_and_or.mp hok).imp_right Nat.not_lt.mp)

end Sys2Proof.Proofs
end

section
/-! The command word and its operands (30_encoding.md R70 to R74): what the decoder answers, and that a command reads only
the registers R73 lists for it. -/

namespace Sys2Proof.Proofs

open Sys2Proof.Machine Sys2Proof.Claims

/-! ### The fields of a word put together -/

theorem wordOpc_append (rsv : BitVec 28) (opc : BitVec 4) : wordOpc (rsv ++ opc) = opc :=
  BitVec.extractLsb'_append_eq_right

theorem wordRsv_append (rsv : BitVec 28) (opc : BitVec 4) : wordRsv (rsv ++ opc) = rsv :=
  BitVec.extractLsb'_append_eq_left

/-- With the reserved bits zero the opcode alone decides (30_encoding.md R72). -/
theorem decode_zero_append (opc : BitVec 4) : decode ((0 : BitVec 28) ++ opc) = decodeOpc opc := by
  rw [decode, wordRsv_append, if_pos rfl, wordOpc_append]

/-- Settles O1: the opcode alone decides, and its sixteen values are gone through. -/
theorem opcodeMap : Obligations.OpcodeMap := by
  intro opc
  rw [decode_zero_append]
  decide +revert

/-- Settles O2: the decoder's law. -/
theorem decodeExactlyTheEncodedWords : Obligations.DecodeExactlyTheEncodedWords := fun _ _ => decode_eq_ok

/-! ### The words of the opcode table -/

theorem decodeTableWord_of_ok {w : Nat} {i : Instr} (h : decode (tableWord 32 w) = .ok i) :
    decodeTableWord 32 w = some i := by
  rw [decodeTableWord, if_pos (Nat.mod_lt w (by decide)), h]

/-- An illegal word selects nothing (30_encoding.md R74). -/
theorem decodeTableWord_of_illegalWord {w : Nat} (h : illegalWord (tableWord 32 w)) : decodeTableWord 32 w = none := by
  obtain ⟨r, hr⟩ := decode_error (ne_encode_of_illegalWord h)
  rw [decodeTableWord, if_pos (Nat.mod_lt w (by decide)), hr]

/-- Settles O3: four of the words are the commands' own, and the other five are illegal. -/
theorem commandWordsDecode : Obligations.CommandWordsDecode :=
  ⟨decodeTableWord_of_ok (decode_encode .benc), decodeTableWord_of_ok (decode_encode .bdec),
    decodeTableWord_of_ok (decode_encode .embed), decodeTableWord_of_ok (decode_encode .extract),
    decodeTableWord_of_illegalWord (.inl rfl), decodeTableWord_of_illegalWord (.inr (by decide)),
    decodeTableWord_of_illegalWord (.inr (by decide)), decodeTableWord_of_illegalWord (.inr (by decide)),
    decodeTableWord_of_illegalWord (.inr (by decide))⟩

/-! ### States that agree on all that a command works on -/

/-- The two states differ at most in CTRL, CMD, BUSY, DONE, HAZ, the operand registers and the environment. -/
structure SameData (s s' : State) : Prop where
  params : s'.params = s.params
  mem : s'.mem = s.mem
  results : s'.results = s.results
  errcode : s'.status.errcode = s.status.errcode

namespace SameData

variable {s s' : State} (h : SameData s s')
include h

theorem inRange (b n : Nat) : inRange s' b n = inRange s b n := by
  rw [Machine.inRange, Machine.inRange, h.params]

theorem readBytes (b n : Nat) : readBytes s' b n = readBytes s b n :=
  readBytes_congr fun _ _ => memRead_congr h.mem _

theorem readLsbs (g k n : Nat) : readLsbs s' g k n = readLsbs s g k n :=
  readLsbs_congr fun _ _ => by rw [memRead_congr h.mem]

theorem memWrite (a : Nat) (v : Byte) : SameData (memWrite s a v) (memWrite s' a v) :=
  ⟨h.params, congrArg (Memory.write · a v) h.mem, h.results, h.errcode⟩

theorem writeBytes (b : Nat) (vs : List Byte) : SameData (writeBytes s b vs) (writeBytes s' b vs) := by
  induction vs generalizing s s' b with
  | nil => exact h
  | cons v vs ih => exact ih (h.memWrite b v) (b + 1)

theorem writeLsbs (g k : Nat) (bs : Bits) : SameData (writeLsbs s g k bs) (writeLsbs s' g k bs) := by
  induction bs generalizing s s' k with
  | nil => exact h
  | cons b bs ih =>
    rw [Machine.writeLsbs, Machine.writeLsbs, memRead_congr h.mem]
    exact ih (h.memWrite (red g k) _) (k + 1)

theorem setRlen (n : Nat) : SameData (setRlen s n) (setRlen s' n) :=
  ⟨h.params, h.mem, by simp [h.results], h.errcode⟩

theorem setHdr (n : Nat) : SameData (setHdr s n) (setHdr s' n) :=
  ⟨h.params, h.mem, by simp [h.results], h.errcode⟩

theorem setBitcnt (n : Nat) : SameData (setBitcnt s n) (setBitcnt s' n) :=
  ⟨h.params, h.mem, by simp [h.results], h.errcode⟩

theorem raise (e : ErrCode) : SameData (raise e s) (raise e s') :=
  ⟨h.params, h.mem, h.results, rfl⟩

theorem sourceBytes (hsrc : srcAddr s' = srcAddr s) (hlen : srcLen s' = srcLen s) :
    sourceBytes s' = sourceBytes s := by
  rw [Machine.sourceBytes, Machine.sourceBytes, h.readBytes, hsrc, hlen]

theorem headerValue (hgrid : gridAddr s' = gridAddr s) : headerValue s' = headerValue s := by
  rw [Machine.headerValue, Machine.headerValue, h.readLsbs, hgrid]

end SameData

/-- Both outcomes are next states, and they agree. -/
inductive SameEnd : Host.Outcome State Fault Refusal → Host.Outcome State Fault Refusal → Prop where
  | next {t t' : State} (h : SameData t t') : SameEnd (.next t) (.next t')

/-- A check that both runs make alike: it is enough that they agree on either side of it. -/
theorem SameEnd.ite {c : Prop} [Decidable c] {o₁ o₂ o₁' o₂' : Host.Outcome State Fault Refusal}
    (h₁ : SameEnd o₁ o₁') (h₂ : SameEnd o₂ o₂') :
    SameEnd (if c then o₁ else o₂) (if c then o₁' else o₂') := by
  split
  · exact h₁
  · exact h₂

theorem pixelCount_congr {s s' : State} (hw : gridWidth s' = gridWidth s) (hh : gridHeight s' = gridHeight s) :
    pixelCount s' = pixelCount s := by
  rw [pixelCount, pixelCount, hw, hh]

/-! ### A command's end depends only on that and its listed registers (30_encoding.md R73) -/

section
variable {s s' : State} (h : SameData s s')
include h

theorem execBenc_sameEnd (hsrc : srcAddr s' = srcAddr s) (hlen : srcLen s' = srcLen s)
    (hdst : dstAddr s' = dstAddr s) : SameEnd (execBenc s) (execBenc s') := by
  simp only [execBenc, h.inRange, h.sourceBytes hsrc hlen, hsrc, hlen, hdst]
  exact .ite (.next (h.raise .addrErr)) <| .ite (.next (h.raise .overlapErr)) <|
    .next ((h.writeBytes _ _).setRlen _)

theorem execBdec_sameEnd (hsrc : srcAddr s' = srcAddr s) (hlen : srcLen s' = srcLen s)
    (hdst : dstAddr s' = dstAddr s) : SameEnd (execBdec s) (execBdec s') := by
  simp only [execBdec, h.inRange, h.sourceBytes hsrc hlen, hsrc, hlen, hdst]
  refine .ite (.next (h.raise .addrErr)) <| .ite (.next (h.raise .overlapErr)) ?_
  cases parseSymbols (sourceBytes s) with
  | none => exact .next (h.raise .decodeErr)
  | some digits => exact .next ((h.writeBytes _ _).setRlen _)

theorem execEmbed_sameEnd (hsrc : srcAddr s' = srcAddr s) (hlen : srcLen s' = srcLen s)
    (hgrid : gridAddr s' = gridAddr s) (hcount : pixelCount s' = pixelCount s)
    (htrunc : s'.ctrl.truncEn = s.ctrl.truncEn) : SameEnd (execEmbed s) (execEmbed s') := by
  simp only [execEmbed, embedCount, h.inRange, h.sourceBytes hsrc hlen, hsrc, hlen, hgrid, hcount, htrunc]
  have hhdr := h.setHdr (8 * srcLen s)
  exact .ite (.next (h.raise .addrErr)) <| .ite (.next (h.raise .overlapErr)) <|
    .ite (.next (h.raise .lengthErr)) <| .ite (.next (hhdr.raise .capacityErr)) <|
    .next ((hhdr.writeLsbs _ _ _).setBitcnt _)

/-- Of the grid's size EXTRACT reads only the pixel count (70_reset_and_hazards.md R178). -/
theorem execExtract_sameEnd (hgrid : gridAddr s' = gridAddr s) (hcount : pixelCount s' = pixelCount s)
    (hdst : dstAddr s' = dstAddr s) : SameEnd (execExtract s) (execExtract s') := by
  have hhdr := h.setHdr (headerValue s)
  have hread := hhdr.setBitcnt (16 + headerValue s)
  simp only [execExtract, h.inRange, h.readLsbs, h.headerValue hgrid, hgrid, hcount, hdst]
  exact .ite (.next (h.raise .addrErr)) <| .ite (.next ((h.setBitcnt _).raise .headerErr)) <|
    .ite (.next ((hhdr.setBitcnt _).raise .payloadTrunc)) <| .ite (.next (hread.raise .addrErr)) <|
    .ite (.next (hread.raise .overlapErr)) <| .next ((hread.writeBytes _ _).setRlen _)

theorem exec_sameEnd {i : Instr} (hops : sameOperands i s s') : SameEnd (exec i s) (exec i s') := by
  cases i with
  | benc =>
    obtain ⟨hsrc, hlen, hdst⟩ := hops
    exact execBenc_sameEnd h hsrc hlen hdst
  | bdec =>
    obtain ⟨hsrc, hlen, hdst⟩ := hops
    exact execBdec_sameEnd h hsrc hlen hdst
  | embed =>
    obtain ⟨hsrc, hlen, hgrid, hw, hh, htrunc⟩ := hops
    exact execEmbed_sameEnd h hsrc hlen hgrid (pixelCount_congr hw hh) htrunc
  | extract =>
    obtain ⟨hgrid, hw, hh, hdst⟩ := hops
    exact execExtract_sameEnd h hgrid (pixelCount_congr hw hh) hdst

end

/-- Settles O29: both runs make the same checks and the same writes. -/
theorem unlistedRegistersDoNotMatter : Obligations.UnlistedRegistersDoNotMatter := by
  intro i s s' t t' hops hparams hmem hresults herr ht ht'
  have hend := exec_sameEnd ⟨hparams, hmem, hresults, herr⟩ hops
  rw [ht, ht'] at hend
  obtain ⟨hdata⟩ := hend
  exact ⟨hdata.mem, hdata.results, hdata.errcode⟩

end Sys2Proof.Proofs
end

section
/-! BitEncode and BitDecode digit by digit (40_bitcodec.md R90, R93), and every way BENC and BDEC end, with what they
leave in memory (R91, R94, R95, R97). -/

namespace Sys2Proof.Proofs

open Sys2Proof.Machine Sys2Proof.Claims

/-! ### The two functions of the codec -/

theorem bitDecode_bitEncode (t : List Byte) : bitDecode (bitEncode t) = t :=
  bitDecode_of_bits (bitEncode_length t) fun j i hj hi => bitEncode_getElem? t j i hj hi

/-- Settles O8, from the model's law for one digit. -/
theorem bitEncodeDigits : Obligations.BitEncodeDigits := by
  refine ⟨bitEncode_nil, fun t => ⟨List.flatMap_def .., bitEncode_length t, fun j i c hc hi => ?_⟩⟩
  obtain ⟨hj, rfl⟩ := List.getElem?_eq_some_iff.mp hc
  exact bitEncode_getElem? t j i hj hi

/-- Character `j` of BitDecode is the value of group `j`, which 8 digits hold (40_bitcodec.md R93). -/
theorem bitDecode_getElem_toNat {s : Bits} {j : Nat} (hj : j < (bitDecode s).length) :
    (bitDecode s)[j].toNat = val (bitGroup (leftPad s) j) := by
  have hlt := val_lt (bitGroup (leftPad s) j)
  rw [bitDecode_length] at hj
  rw [bitGroup_length _ _ (by rw [leftPad_length]; omega)] at hlt
  rw [bitDecode_getElem, BitVec.toNat_ofNat, Nat.mod_eq_of_lt hlt]

/-- Settles O9, from the model's laws for the padded length, one group and one digit. -/
theorem bitDecodeGroups : Obligations.BitDecodeGroups := by
  refine ⟨rfl, fun s => ⟨?_, ?_, ?_, bitDecode_length s, fun j hj => ?_⟩⟩
  · unfold pad; omega
  · unfold pad; omega
  · rw [bitDecode_length, ceil8, pad]; omega
  · exact ⟨(bitDecode s)[j], List.getElem?_eq_getElem hj, bitDecode_getElem_toNat hj,
      fun i hi => (bitDecode_bit s j i hj hi).symm⟩

/-- Settles O10. -/
theorem bitDecodeUndoesBitEncode : Obligations.BitDecodeUndoesBitEncode := bitDecode_bitEncode

/-- Digit `m` of the padded sequence (40_bitcodec.md R93). -/
theorem leftPad_getElem? (s : Bits) (m : Nat) :
    (leftPad s)[m]? = if m < pad s.length then some false else s[m - pad s.length]? := by
  have hpad : (List.replicate (padLength s.length) false).length = pad s.length := List.length_replicate
  rw [leftPad, List.getElem?_append, hpad]
  split
  · exact List.getElem?_replicate_of_lt ‹_›
  · rfl

/-! ### Runs of bytes in memory -/

theorem onlyRegion_writeBytes (s : State) (b : Nat) (vs : List Byte) :
    onlyRegion s (writeBytes s b vs) b vs.length :=
  fun _ ha => memRead_writeBytes_outside ha

/-- BitDecode's characters, written from `b` on, hold the digits left-padded with zeros (40_bitcodec.md R93). -/
theorem decodedAt_writeBytes {s : State} {bs : Bits} {d : Nat → Bool} (b : Nat) (hwf : Memory.wf s.mem = true)
    (hd : ∀ k, k < bs.length → bs[k]? = some (d k)) :
    decodedAt (writeBytes s b (bitDecode bs)) b bs.length d := by
  intro j hj i hi
  have hj' : j < (bitDecode bs).length := by rw [bitDecode_length]; exact hj
  have hk : 8 * j + i - pad bs.length < bs.length := by unfold pad; omega
  have hdigit := bitDecode_bit bs j i hj' hi
  rw [memRead_writeBytes hwf hj', ← Option.some_inj, hdigit, leftPad_getElem?]
  split
  · rfl
  · exact hd _ hk

/-- Digit `k` of BitEncode of the text at SRC (40_bitcodec.md R90). -/
theorem bitEncode_sourceBytes_getElem? {s : State} {k : Nat} (hk : k < 8 * srcLen s) :
    (bitEncode (sourceBytes s))[k]? = some (textBit s k) := by
  have hj : k / 8 < (sourceBytes s).length := by rw [sourceBytes_length]; omega
  have hdigit := bitEncode_getElem? (sourceBytes s) (k / 8) (k % 8) hj (by omega)
  rwa [Nat.div_add_mod, show (sourceBytes s)[k / 8] = memRead s (srcAddr s + k / 8) from
    readBytes_getElem _ _ _ _ hj] at hdigit

/-! ### The checks that come before a command's writes -/

theorem regionsRefused_iff {s : State} {b n b' n' : Nat} :
    (!(inRange s b n && inRange s b' n')) = true ↔ ¬(regionOk s b n ∧ regionOk s b' n') := by
  rw [Bool.not_eq_true', ← Bool.not_eq_true, Bool.and_eq_true, inRange_iff, inRange_iff]

theorem overlapRefused_iff {b n b' n' : Nat} : (!disjoint b n b' n') = true ↔ ¬apart b n b' n' := by
  rw [Bool.not_eq_true', ← Bool.not_eq_true, disjoint_iff]

/-! ### BENC -/

/-- What BENC writes: the symbols of the text's digits (40_bitcodec.md R91). -/
def bencSymbols (s : State) : List Byte := (bitEncode (sourceBytes s)).map symbol

@[simp] theorem bencSymbols_length (s : State) : (bencSymbols s).length = 8 * srcLen s := by simp [bencSymbols]

theorem bencSymbols_getElem? {s : State} {k : Nat} (hk : k < 8 * srcLen s) :
    (bencSymbols s)[k]? = some (symbol (textBit s k)) := by
  rw [bencSymbols, List.getElem?_map, bitEncode_sourceBytes_getElem? hk, Option.map_some]

/-- No symbol is what an unlisted byte reads as, so any memory reads the symbols back. -/
theorem bencSymbols_ne {s : State} {v : Byte} (hv : v ∈ bencSymbols s) : v ≠ unlistedByte := by
  obtain ⟨b, -, rfl⟩ := List.mem_map.mp hv
  exact symbol_ne_zero b

theorem memRead_writeBytes_bencSymbols {s u : State} {b k : Nat} (hk : k < 8 * srcLen s) :
    memRead (writeBytes u b (bencSymbols s)) (b + k) = symbol (textBit s k) := by
  have hk' : k < (bencSymbols s).length := by simpa using hk
  rw [memRead_writeBytes_ne (fun _ => bencSymbols_ne) hk', ← Option.some_inj, ← List.getElem?_eq_getElem hk',
    bencSymbols_getElem? hk]

/-- BENC, check by check (40_bitcodec.md R91). -/
theorem exec_benc_eq (s : State) : exec .benc s =
    if ¬(sourceOk s ∧ regionOk s (dstAddr s) (8 * srcLen s)) then .next (withCode s .addrErr)
    else if ¬sourceApart s (8 * srcLen s) then .next (withCode s .overlapErr)
    else .next (setRlen (writeBytes s (dstAddr s) (bencSymbols s)) (8 * srcLen s)) := by
  simp only [exec, execBenc, regionsRefused_iff, overlapRefused_iff]
  rfl

/-- A text and its symbols that lie apart in a buffer of at most 2^32 bytes: RLEN holds the count of the symbols. -/
theorem bencLength_lt {s : State} (hp : s.params.wf = true) (hsrc : sourceOk s)
    (hdst : regionOk s (dstAddr s) (8 * srcLen s)) (hapart : sourceApart s (8 * srcLen s)) : 8 * srcLen s < 2 ^ 32 := by
  obtain ⟨-, hmem⟩ : 1 ≤ s.params.memBytes ∧ s.params.memBytes ≤ 2 ^ 32 := by simpa [Config.Params.wf] using hp
  omega

/-- Settles O11: the checks in order, and past them the run of symbols written at DST. -/
theorem bencEncodesText : Obligations.BencEncodesText := by
  refine ⟨decode_encode .benc, fun s hp => ⟨fun hrange => ?_, fun hsrc hdst hover => ?_, fun hsrc hdst hapart => ?_⟩⟩
  · rw [exec_benc_eq, if_pos hrange]
  · rw [exec_benc_eq, if_neg (not_not.mpr ⟨hsrc, hdst⟩), if_pos hover]
  · have ht := exec_benc_eq s
    rw [if_neg (not_not.mpr ⟨hsrc, hdst⟩), if_neg (not_not.mpr hapart)] at ht
    refine ⟨_, ht, exec_frame ht, by simp, ?_, by simp, by simp, fun k hk => ?_, ?_⟩
    · rw [setRlen_results, BitVec.toNat_ofNat, Nat.mod_eq_of_lt (bencLength_lt hp hsrc hdst hapart)]
    · exact memRead_writeBytes_bencSymbols hk
    · rw [← bencSymbols_length s]
      exact onlyRegion_writeBytes s (dstAddr s) (bencSymbols s)

/-! ### BDEC -/

theorem sourceBytes_getElem? {s : State} {k : Nat} (hk : k < srcLen s) :
    (sourceBytes s)[k]? = some (sourceSymbol s k) := by
  have hk' : k < (sourceBytes s).length := by simpa using hk
  rw [List.getElem?_eq_getElem hk']
  exact congrArg some (readBytes_getElem _ _ _ _ hk')

/-- Some symbol is invalid: the symbol string has no digits (40_bitcodec.md R95). -/
theorem parseSymbols_sourceBytes_none {s : State}
    (h : ∃ k, k < srcLen s ∧ sourceSymbol s k ≠ 0x30 ∧ sourceSymbol s k ≠ 0x31) :
    parseSymbols (sourceBytes s) = none := by
  obtain ⟨k, hk, hne⟩ := h
  exact parseSymbols_eq_none.mpr ⟨_, List.mem_of_getElem? (sourceBytes_getElem? hk), hne⟩

theorem digit_of_sourceBytes {s : State} {digits : Bits} (h : parseSymbols (sourceBytes s) = some digits) {k : Nat}
    (hk : k < digits.length) : digits[k]? = some (sourceSymbol s k == 0x31) := by
  have hsym := sourceBytes_getElem? (length_of_parseSymbols h ▸ hk)
  rw [parseSymbols_eq_some.mp h, List.getElem?_map, List.getElem?_eq_getElem hk, Option.map_some,
    Option.some_inj] at hsym
  rw [List.getElem?_eq_getElem hk, ← hsym]
  cases digits[k] <;> rfl

/-- Every symbol is valid: the symbol string has digits (40_bitcodec.md R95). -/
theorem parseSymbols_sourceBytes_some {s : State}
    (h : ∀ k, k < srcLen s → sourceSymbol s k = 0x30 ∨ sourceSymbol s k = 0x31) :
    ∃ digits, parseSymbols (sourceBytes s) = some digits := by
  refine Option.ne_none_iff_exists'.mp fun hnone => ?_
  obtain ⟨c, hc, h0, h1⟩ := parseSymbols_eq_none.mp hnone
  obtain ⟨k, hk, rfl⟩ := List.getElem_of_mem hc
  rw [sourceBytes_length] at hk
  have hget : (sourceBytes s)[k] = sourceSymbol s k := readBytes_getElem _ _ _ _ _
  rw [hget] at h0 h1
  exact (h k hk).elim h0 h1

/-- How BDEC ends once its regions are good: by what its symbols parse to (40_bitcodec.md R94, R95). -/
def bdecEnd (s : State) : Option Bits → State
  | none => withCode s .decodeErr
  | some digits => setRlen (writeBytes s (dstAddr s) (bitDecode digits)) ((srcLen s + 7) / 8)

/-- BDEC, check by check (40_bitcodec.md R94). -/
theorem exec_bdec_eq (s : State) : exec .bdec s =
    if ¬(sourceOk s ∧ regionOk s (dstAddr s) ((srcLen s + 7) / 8)) then .next (withCode s .addrErr)
    else if ¬sourceApart s ((srcLen s + 7) / 8) then .next (withCode s .overlapErr)
    else .next (bdecEnd s (parseSymbols (sourceBytes s))) := by
  simp only [exec, execBdec, regionsRefused_iff, overlapRefused_iff]
  cases parseSymbols (sourceBytes s) with
  | none => rfl
  | some digits => rfl

theorem exec_bdec_of_apart {s : State} (hsrc : sourceOk s) (hdst : regionOk s (dstAddr s) ((srcLen s + 7) / 8))
    (hapart : sourceApart s ((srcLen s + 7) / 8)) :
    exec .bdec s = .next (bdecEnd s (parseSymbols (sourceBytes s))) := by
  rw [exec_bdec_eq, if_neg (not_not.mpr ⟨hsrc, hdst⟩), if_neg (not_not.mpr hapart)]

/-- RLEN holds the count of the characters, as SLEN held that of the symbols (10_state.md R26, R31). -/
theorem bdecEnd_rlen (s : State) (digits : Bits) :
    (bdecEnd s (some digits)).results.rlen.toNat = (srcLen s + 7) / 8 := by
  have hlen : srcLen s < 2 ^ 32 := s.operands.slen.isLt
  rw [bdecEnd, setRlen_results, BitVec.toNat_ofNat, Nat.mod_eq_of_lt (by omega)]

/-- Settles O12: the checks in order, and past them the run of characters written at DST. -/
theorem bdecDecodesSymbols : Obligations.BdecDecodesSymbols := by
  refine ⟨decode_encode .bdec, fun s _ hwf => ⟨fun hrange => ?_, fun hsrc hdst hover => ?_,
    fun hsrc hdst hapart hbad => ?_, fun hsrc hdst hapart hgood => ?_⟩⟩
  · rw [exec_bdec_eq, if_pos hrange]
  · rw [exec_bdec_eq, if_neg (not_not.mpr ⟨hsrc, hdst⟩), if_pos hover]
  · rw [exec_bdec_of_apart hsrc hdst hapart, parseSymbols_sourceBytes_none hbad, bdecEnd]
  · obtain ⟨digits, hparse⟩ := parseSymbols_sourceBytes_some hgood
    have ht := exec_bdec_of_apart hsrc hdst hapart
    rw [hparse] at ht
    refine ⟨_, ht, exec_frame ht, by simp [bdecEnd], bdecEnd_rlen s digits, by simp [bdecEnd], by simp [bdecEnd],
      ?_, ?_⟩
    · have hdecoded := decodedAt_writeBytes (dstAddr s) hwf fun _ => digit_of_sourceBytes hparse
      rwa [length_of_parseSymbols hparse] at hdecoded
    · have honly := onlyRegion_writeBytes s (dstAddr s) (bitDecode digits)
      rwa [bitDecode_length, length_of_parseSymbols hparse] at honly

/-! ### BENC, then BDEC -/

/-- BENC that ends without an error has passed its checks and written the text's symbols (40_bitcodec.md R91). -/
theorem exec_benc_completes {s t : State} (h : exec .benc s = .next t) (he : t.status.errcode = .none) :
    regionOk s (dstAddr s) (8 * srcLen s) ∧
      t = setRlen (writeBytes s (dstAddr s) (bencSymbols s)) (8 * srcLen s) := by
  obtain ⟨-, rfl⟩ | ⟨-, -, -, rfl⟩ | ⟨-, hdst, -, ht⟩ := execBenc_cases h
  · simp at he
  · simp at he
  · exact ⟨inRange_iff.mp hdst, ht⟩

/-- A run of bytes that no unlisted byte reads as is read back whole. -/
theorem readBytes_writeBytes_ne {s : State} {b : Nat} {vs : List Byte} (hv : ∀ v ∈ vs, v ≠ unlistedByte) :
    readBytes (writeBytes s b vs) b vs.length = vs := by
  refine List.ext_getElem (readBytes_length _ _ _) fun k h h' => ?_
  rw [readBytes_getElem, memRead_writeBytes_ne hv h']

/-- The symbol string at BENC's output region parses to the text's digits. -/
theorem parseSymbols_benc_output {s s2 : State}
    (hmem : s2.mem = (writeBytes s (dstAddr s) (bencSymbols s)).mem) (hsrc : srcAddr s2 = dstAddr s)
    (hlen : srcLen s2 = 8 * srcLen s) : parseSymbols (sourceBytes s2) = some (bitEncode (sourceBytes s)) := by
  have hbytes : sourceBytes s2 = bencSymbols s := by
    rw [sourceBytes, hsrc, hlen, ← bencSymbols_length s, readBytes_congr fun _ _ => memRead_congr hmem _,
      readBytes_writeBytes_ne fun _ => bencSymbols_ne]
  rw [hbytes, bencSymbols, parseSymbols_map_symbol]

/-- Settles O13: BDEC parses the very digits BENC wrote, and BitDecode undoes BitEncode. -/
theorem bencThenBdecReturnsText : Obligations.BencThenBdecReturnsText := by
  refine ⟨bitDecode_bitEncode, fun s s2 t _ hwf _ ht he hmem hparams he2 hsrc hlen hdst hapart => ?_⟩
  obtain ⟨hregion, rfl⟩ := exec_benc_completes ht he
  have hcount : (srcLen s2 + 7) / 8 = srcLen s := by omega
  have hsource : sourceOk s2 := by simpa [sourceOk, regionOk, hsrc, hlen, hparams] using hregion
  have hu := exec_bdec_of_apart hsource (hcount ▸ hdst) (hcount ▸ hapart)
  rw [parseSymbols_benc_output hmem hsrc hlen] at hu
  refine ⟨_, hu, by simpa [bdecEnd] using he2, by rw [bdecEnd_rlen, hcount], fun j hj => ?_⟩
  have hwf2 : Memory.wf s2.mem = true := hmem ▸ writeBytes_wf _ _ hwf
  have hj' : j < (sourceBytes s).length := by simpa using hj
  calc memRead (writeBytes s2 (dstAddr s2) (bitDecode (bitEncode (sourceBytes s)))) (dstAddr s2 + j)
      = (sourceBytes s)[j] := by simp only [bitDecode_bitEncode, memRead_writeBytes hwf2 hj']
    _ = memRead s (srcAddr s + j) := readBytes_getElem _ _ _ _ hj'

end Sys2Proof.Proofs
end

section
/-! EMBED (41_steganographer.md R110 to R116): the stream it writes, every way it ends, and what it leaves in memory. -/

namespace Sys2Proof.Proofs

open Sys2Proof.Machine Sys2Proof.Claims

/-! ### The stream and the part of it the grid holds -/

/-- Stream bit `k`: the header's digits, then the text's (41_steganographer.md R110). -/
theorem embedStream_sourceBytes_getElem? {s : State} {k : Nat} (hk : k < 16 + 8 * srcLen s) :
    (embedStream (sourceBytes s))[k]? = some (streamBit s k) := by
  unfold streamBit
  split
  · rw [embedStream_header _ _ ‹_›, sourceBytes_length]
  · rw [embedStream, List.getElem?_append_right (by rw [bin_length]; omega), bin_length,
      bitEncode_sourceBytes_getElem? (by omega)]

/-- What EMBED writes when it succeeds: the stream, cut off at the grid's last pixel (41_steganographer.md R110). -/
def embedBits (s : State) : Bits := (embedStream (sourceBytes s)).take (pixelCount s)

theorem embedCount_le (s : State) : embedCount s ≤ pixelCount s := Nat.min_le_right _ _

theorem embedCount_of_room {s : State} (h : 16 + 8 * srcLen s ≤ pixelCount s) : embedCount s = 16 + 8 * srcLen s :=
  Nat.min_eq_left h

theorem embedCount_of_short {s : State} (h : pixelCount s < 16 + 8 * srcLen s) : embedCount s = pixelCount s :=
  Nat.min_eq_right h.le

@[simp] theorem embedBits_length (s : State) : (embedBits s).length = embedCount s := by
  rw [embedBits, List.length_take, embedStream_length, sourceBytes_length, Nat.min_comm, embedCount]

theorem embedBits_getElem {s : State} {k : Nat} (hk : k < (embedBits s).length) : (embedBits s)[k] = streamBit s k := by
  have hk' := hk
  rw [embedBits_length, embedCount, Nat.lt_min] at hk'
  obtain ⟨hstream, hpixel⟩ := hk'
  rw [← Option.some_inj, ← List.getElem?_eq_getElem hk, embedBits, List.getElem?_take_of_lt hpixel,
    embedStream_sourceBytes_getElem? hstream]

/-- The stream depends on the text alone, wherever it lies (41_steganographer.md R115). -/
theorem streamBit_congr {s s' : State} {k : Nat} (hlen : srcLen s' = srcLen s)
    (htext : ∀ j, j < srcLen s → memRead s' (srcAddr s' + j) = memRead s (srcAddr s + j))
    (hk : k < 16 + 8 * srcLen s) : streamBit s' k = streamBit s k := by
  unfold streamBit textBit
  split
  · rw [hlen]
  · rw [htext _ (by omega)]

/-! ### The state a successful EMBED leaves -/

/-- How EMBED ends when every check passes (41_steganographer.md R110). -/
def embedEnd (s : State) : State :=
  setBitcnt (writeLsbs (setHdr s (8 * srcLen s)) (gridAddr s) 0 (embedBits s)) (embedCount s)

theorem embedEnd_status (s : State) : (embedEnd s).status = s.status := by simp [embedEnd]

theorem embedEnd_rlen (s : State) : (embedEnd s).results.rlen = s.results.rlen := by simp [embedEnd]

theorem hdr_setHdr {s : State} (hn : srcLen s ≤ 8191) :
    (setHdr s (8 * srcLen s)).results.hdr.toNat = 8 * srcLen s := by
  rw [setHdr_results, BitVec.toNat_ofNat, Nat.mod_eq_of_lt (by omega)]

theorem embedEnd_hdr {s : State} (hn : srcLen s ≤ 8191) : (embedEnd s).results.hdr.toNat = 8 * srcLen s := by
  rw [← hdr_setHdr hn]
  simp [embedEnd]

theorem embedEnd_bitcnt (s : State) : (embedEnd s).results.bitcnt.toNat = embedCount s := by
  have hle := embedCount_le s
  have hpixels := pixelCount_le s
  rw [embedEnd, setBitcnt_results, BitVec.toNat_ofNat, Nat.mod_eq_of_lt (by omega)]

theorem embedEnd_wf {s : State} (hwf : Memory.wf s.mem = true) : Memory.wf (embedEnd s).mem = true :=
  writeLsbs_wf (s := setHdr s (8 * srcLen s)) _ _ _ hwf

/-- A red byte that EMBED reaches has its stream bit as its least significant bit (41_steganographer.md R111). -/
theorem memRead_embedEnd_red {s : State} {k : Nat} (hwf : Memory.wf s.mem = true) (hk : k < embedCount s) :
    memRead (embedEnd s) (gridAddr s + 4 * k) = setLsb (memRead s (gridAddr s + 4 * k)) (streamBit s k) := by
  have hk' : k < (embedBits s).length := by rwa [embedBits_length]
  have hread := memRead_writeLsbs (s := setHdr s (8 * srcLen s)) (g := gridAddr s) (k := 0) hwf hk'
  rwa [Nat.zero_add, embedBits_getElem hk'] at hread

/-- EMBED leaves every byte alone that is no red byte it reaches (41_steganographer.md R113). -/
theorem memRead_embedEnd_other {s : State} {a : Nat} (ha : ∀ k, k < embedCount s → a ≠ gridAddr s + 4 * k) :
    memRead (embedEnd s) a = memRead s a := by
  refine memRead_writeLsbs_other (s := setHdr s (8 * srcLen s)) fun k hk => ?_
  rw [Nat.zero_add]
  exact ha k (by rwa [embedBits_length] at hk)

theorem embeddedAt_embedEnd {s : State} {k : Nat} (hwf : Memory.wf s.mem = true) (hk : k < embedCount s) :
    embeddedAt s (embedEnd s) k (streamBit s k) := by
  unfold embeddedAt
  rw [memRead_embedEnd_red hwf hk]
  exact ⟨setLsb_lsb _ _, setLsb_high _ _⟩

/-- A text apart from the grid is still there after EMBED. -/
theorem memRead_embedEnd_source {s : State} {j : Nat} (hapart : textApart s) (hj : j < srcLen s) :
    memRead (embedEnd s) (srcAddr s + j) = memRead s (srcAddr s + j) := by
  refine memRead_embedEnd_other fun k hk => ?_
  have := embedCount_le s
  omega

/-- Byte `o` of the grid after EMBED. -/
theorem memRead_embedEnd_grid {s : State} (hwf : Memory.wf s.mem = true) (o : Nat) :
    memRead (embedEnd s) (gridAddr s + o) =
      if o % 4 = 0 ∧ o / 4 < embedCount s then setLsb (memRead s (gridAddr s + o)) (streamBit s (o / 4))
      else memRead s (gridAddr s + o) := by
  split
  · next hred =>
    obtain ⟨hmod, hk⟩ := hred
    have hread := memRead_embedEnd_red hwf hk
    rwa [show 4 * (o / 4) = o by omega] at hread
  · exact memRead_embedEnd_other fun k hk => by omega

/-! ### Every way EMBED ends -/

/-- EMBED, check by check (41_steganographer.md R110). -/
theorem exec_embed_eq (s : State) : exec .embed s =
    if ¬(sourceOk s ∧ gridOk s) then .next (withCode s .addrErr)
    else if ¬textApart s then .next (withCode s .overlapErr)
    else if 8191 < srcLen s then .next (withCode s .lengthErr)
    else if pixelCount s < 16 + 8 * srcLen s ∧ s.ctrl.truncEn = false then
      .next (withCode (setHdr s (8 * srcLen s)) .capacityErr)
    else .next (embedEnd s) := by
  simp only [exec, execEmbed, regionsRefused_iff, overlapRefused_iff]
  rfl

section
variable {s : State} (hsrc : sourceOk s) (hgrid : gridOk s) (hapart : textApart s)
include hsrc hgrid hapart

theorem exec_embed_past_regions : exec .embed s =
    if 8191 < srcLen s then .next (withCode s .lengthErr)
    else if pixelCount s < 16 + 8 * srcLen s ∧ s.ctrl.truncEn = false then
      .next (withCode (setHdr s (8 * srcLen s)) .capacityErr)
    else .next (embedEnd s) := by
  rw [exec_embed_eq, if_neg (not_not.mpr ⟨hsrc, hgrid⟩), if_neg (not_not.mpr hapart)]

theorem exec_embed_of_long (hn : 8191 < srcLen s) : exec .embed s = .next (withCode s .lengthErr) := by
  rw [exec_embed_past_regions hsrc hgrid hapart, if_pos hn]

theorem exec_embed_of_short (hn : srcLen s ≤ 8191) (hp : pixelCount s < 16 + 8 * srcLen s)
    (htrunc : s.ctrl.truncEn = false) :
    exec .embed s = .next (withCode (setHdr s (8 * srcLen s)) .capacityErr) := by
  rw [exec_embed_past_regions hsrc hgrid hapart, if_neg (by omega), if_pos ⟨hp, htrunc⟩]

theorem exec_embed_of_room (hn : srcLen s ≤ 8191)
    (hroom : 16 + 8 * srcLen s ≤ pixelCount s ∨ s.ctrl.truncEn = true) : exec .embed s = .next (embedEnd s) := by
  have hshort : ¬(pixelCount s < 16 + 8 * srcLen s ∧ s.ctrl.truncEn = false) := by
    rintro ⟨hp, htrunc⟩
    simp [htrunc] at hroom
    omega
  rw [exec_embed_past_regions hsrc hgrid hapart, if_neg (by omega), if_neg hshort]

end

/-- Every check of EMBED passes (41_steganographer.md R110). -/
structure EmbedFits (s : State) : Prop where
  source : sourceOk s
  grid : gridOk s
  apart : textApart s
  length : srcLen s ≤ 8191
  room : 16 + 8 * srcLen s ≤ pixelCount s ∨ s.ctrl.truncEn = true

theorem EmbedFits.exec {s : State} (h : EmbedFits s) : exec .embed s = .next (embedEnd s) :=
  exec_embed_of_room h.source h.grid h.apart h.length h.room

/-- EMBED completes exactly when its checks pass; otherwise it records an error and leaves memory alone. -/
theorem exec_embed_fits_or_keeps {s t : State} (h : exec .embed s = .next t) :
    (EmbedFits s ∧ t = embedEnd s) ∨ (¬EmbedFits s ∧ t.status.errcode ≠ .none ∧ t.mem = s.mem) := by
  by_cases hfits : EmbedFits s
  · rw [hfits.exec] at h
    cases h
    exact .inl ⟨hfits, rfl⟩
  · refine .inr ⟨hfits, ?_⟩
    obtain ⟨-, rfl⟩ | ⟨-, -, -, rfl⟩ | ⟨-, -, -, -, rfl⟩ | ⟨-, -, -, -, -, -, rfl⟩ |
      ⟨hsrc, hgrid, hapart, hn, hroom, -⟩ := execEmbed_cases h
    · exact ⟨by simp, rfl⟩
    · exact ⟨by simp, rfl⟩
    · exact ⟨by simp, rfl⟩
    · exact ⟨by simp, rfl⟩
    · exact absurd ⟨inRange_iff.mp hsrc, inRange_iff.mp hgrid, disjoint_iff.mp hapart, hn,
        (Nat.lt_or_ge _ _).symm.imp id hroom⟩ hfits

/-- An EMBED without an error has passed its checks. -/
theorem exec_embed_completes {s t : State} (h : exec .embed s = .next t) (he : t.status.errcode = .none) :
    EmbedFits s ∧ t = embedEnd s :=
  (exec_embed_fits_or_keeps h).resolve_right fun ⟨_, hne, _⟩ => hne he

/-- Settles O14: the checks in order, and past them the stream bits written to the red bytes. -/
theorem embedWritesStream : Obligations.EmbedWritesStream := by
  refine ⟨decode_encode .embed, fun s hwf => ⟨fun hrange => ?_, fun hsrc hgrid hover => ?_, exec_embed_of_long,
    fun hsrc hgrid hapart hn hp htrunc => ?_, fun hsrc hgrid hapart hn hroom => ?_⟩⟩
  · rw [exec_embed_eq, if_pos hrange]
  · rw [exec_embed_eq, if_neg (not_not.mpr ⟨hsrc, hgrid⟩), if_pos hover]
  · have ht := exec_embed_of_short hsrc hgrid hapart hn hp htrunc
    exact ⟨_, ht, exec_frame ht, rfl, rfl, hdr_setHdr hn, rfl, rfl⟩
  · have ht := exec_embed_of_room hsrc hgrid hapart hn hroom
    exact ⟨_, ht, exec_frame ht, embedEnd_status s, embedEnd_hdr hn, embedEnd_rlen s, embedEnd_bitcnt s,
      fun k => embeddedAt_embedEnd hwf, fun a => memRead_embedEnd_other⟩

theorem scanIndex_mod {w x y : Nat} (hx : x < w) : scanIndex w x y % w = x := by
  rw [scanIndex, Nat.add_comm, Nat.add_mul_mod_self_right, Nat.mod_eq_of_lt hx]

theorem scanIndex_div {w x y : Nat} (hx : x < w) : scanIndex w x y / w = y := by
  rw [scanIndex, Nat.add_comm, Nat.add_mul_div_right _ _ (Nat.zero_lt_of_lt hx), Nat.div_eq_of_lt hx, Nat.zero_add]

/-- A pixel is in the grid exactly when its scan index is below the pixel count (20_memory.md R53). -/
theorem scanIndex_lt_pixelCount {s : State} {x y : Nat} (hx : x < gridWidth s) :
    scanIndex (gridWidth s) x y < pixelCount s ↔ y < gridHeight s := by
  rw [pixelCount, Nat.mul_comm, ← Nat.div_lt_iff_lt_mul (Nat.zero_lt_of_lt hx), scanIndex_div hx]

/-- Settles O15: EMBED writes, and EXTRACT reads, stream bit `k` at the red byte of scan index `k`. -/
theorem bitPlacementIsRowMajor : Obligations.BitPlacementIsRowMajor := by
  refine ⟨fun w x y hx => ⟨scanIndex_mod hx, scanIndex_div hx⟩, fun s t x y hwf _ ht he _ _ hk => ?_,
    fun s x y hx => ?_⟩
  · obtain ⟨-, rfl⟩ := exec_embed_completes ht he
    exact (embeddedAt_embedEnd hwf hk).1
  · split
    · next hy =>
      rw [readLsbs_getElem? ((scanIndex_lt_pixelCount hx).mpr hy), Nat.zero_add]
      rfl
    · next hy =>
      rw [List.getElem?_eq_none_iff, readLsbs_length, ← Nat.not_lt, scanIndex_lt_pixelCount hx]
      exact hy

/-- Settles O16: the three ways left once the other checks pass. -/
theorem capacityPolicy : Obligations.CapacityPolicy := by
  intro s hwf he hsrc hgrid hapart hn
  by_cases hrefused : pixelCount s < 16 + 8 * srcLen s ∧ s.ctrl.truncEn = false
  · obtain ⟨hp, htrunc⟩ := hrefused
    refine ⟨_, exec_embed_of_short hsrc hgrid hapart hn hp htrunc, fun _ _ => ⟨rfl, rfl⟩, fun _ h => ?_, fun h => ?_⟩
    · simp [htrunc] at h
    · omega
  · have hroom : 16 + 8 * srcLen s ≤ pixelCount s ∨ s.ctrl.truncEn = true := by
      simpa [imp_iff_not_or] using hrefused
    have hnone : (embedEnd s).status.errcode = .none := by rw [embedEnd_status, he]
    refine ⟨_, exec_embed_of_room hsrc hgrid hapart hn hroom, fun hp htrunc => absurd ⟨hp, htrunc⟩ hrefused,
      fun hp _ => ?_, fun hp => ?_⟩
    · rw [embedEnd_bitcnt, embedEnd_hdr hn, embedCount_of_short hp]
      exact ⟨hnone, rfl, hp, fun k hk => (embeddedAt_embedEnd hwf (by rwa [embedCount_of_short hp])).1⟩
    · rw [embedEnd_bitcnt, embedCount_of_room hp.ge]
      exact ⟨hnone, rfl⟩

/-- Settles O17: an error leaves memory alone, and success writes the red bytes it reaches, bit 0 only. -/
theorem embedTouchesOnlyRedLsbs : Obligations.EmbedTouchesOnlyRedLsbs := by
  intro s t hwf ht
  obtain ⟨-, rfl⟩ | ⟨-, -, hmem⟩ := exec_embed_fits_or_keeps ht
  · refine ⟨fun a => memRead_embedEnd_other, fun a i hi => ?_⟩
    by_cases hred : ∃ k, k < embedCount s ∧ a = gridAddr s + 4 * k
    · obtain ⟨k, hk, rfl⟩ := hred
      exact (embeddedAt_embedEnd hwf hk).2 i hi
    · rw [memRead_embedEnd_other fun k hk ha => hred ⟨k, hk, ha⟩]
  · exact ⟨fun a _ => memRead_congr hmem a, fun a i _ => by rw [memRead_congr hmem]⟩

/-- Settles O18: the stream's first 16 bits are the header by definition, and LENGTH_ERR is EMBED's third check. -/
theorem headerHoldsPayloadLength : Obligations.HeaderHoldsPayloadLength := by
  refine ⟨fun n => by omega, fun t => ⟨?_, bitEncode_length t⟩, fun s hsrc hgrid hapart hn => ?_, by decide⟩
  · exact List.take_left' (bin_length 16 _)
  · exact exec_embed_of_long hsrc hgrid hapart hn

/-! ### Determinism and repetition (41_steganographer.md R115) -/

/-- EMBED makes of equal texts and equal grids equal grids. -/
theorem memRead_embedEnd_congr {s s' : State} (hwf : Memory.wf s.mem = true) (hwf' : Memory.wf s'.mem = true)
    (hlen : srcLen s' = srcLen s) (hcount : pixelCount s' = pixelCount s)
    (htext : ∀ j, j < srcLen s → memRead s' (srcAddr s' + j) = memRead s (srcAddr s + j)) {o : Nat}
    (ho : memRead s' (gridAddr s' + o) = memRead s (gridAddr s + o)) :
    memRead (embedEnd s') (gridAddr s' + o) = memRead (embedEnd s) (gridAddr s + o) := by
  have hembed : embedCount s' = embedCount s := by rw [embedCount, embedCount, hlen, hcount]
  rw [memRead_embedEnd_grid hwf, memRead_embedEnd_grid hwf', ho, hembed]
  split
  · next hred =>
    obtain ⟨-, hk⟩ := hred
    rw [streamBit_congr hlen htext (hk.trans_le (Nat.min_le_left _ _))]
  · rfl

/-- EMBED's checks read the parameters, the operands and TRUNC_EN only (41_steganographer.md R110). -/
theorem EmbedFits.congr {s s2 : State} (hparams : s2.params = s.params) (hops : s2.operands = s.operands)
    (htrunc : s2.ctrl.truncEn = s.ctrl.truncEn) (h : EmbedFits s) : EmbedFits s2 := by
  obtain ⟨hsrc, hgrid, hapart, hn, hroom⟩ := h
  constructor <;>
    simpa only [sourceOk, gridOk, textApart, regionOk, srcAddr, srcLen, gridAddr, pixelCount, gridWidth, gridHeight,
      hparams, hops, htrunc]

/-- EMBED on the memory it left writes the same bits to the same bytes. -/
theorem embedEnd_again {s s2 : State} (hwf : Memory.wf s.mem = true) (hapart : textApart s)
    (hmem : s2.mem = (embedEnd s).mem) (hops : s2.operands = s.operands) : (embedEnd s2).mem = (embedEnd s).mem := by
  have hwf2 : Memory.wf s2.mem = true := hmem ▸ embedEnd_wf hwf
  have hsrc : srcAddr s2 = srcAddr s := by rw [srcAddr, srcAddr, hops]
  have hlen : srcLen s2 = srcLen s := by rw [srcLen, srcLen, hops]
  have hgrid : gridAddr s2 = gridAddr s := by rw [gridAddr, gridAddr, hops]
  have hcount : embedCount s2 = embedCount s := by
    simp only [embedCount, pixelCount, gridWidth, gridHeight, hops, hlen]
  refine Memory.ext (embedEnd_wf hwf2) (embedEnd_wf hwf) fun a => ?_
  show memRead (embedEnd s2) a = memRead (embedEnd s) a
  by_cases hred : ∃ k, k < embedCount s ∧ a = gridAddr s + 4 * k
  · obtain ⟨k, hk, rfl⟩ := hred
    have hbit : streamBit s2 k = streamBit s k :=
      streamBit_congr hlen (fun j hj => by rw [hsrc, memRead_congr hmem, memRead_embedEnd_source hapart hj])
        (hk.trans_le (Nat.min_le_left _ _))
    rw [← hgrid, memRead_embedEnd_red hwf2 (by rwa [hcount]), hgrid, hbit, memRead_congr hmem,
      memRead_embedEnd_red hwf hk, setLsb_setLsb]
  · rw [memRead_embedEnd_other fun k hk ha => hred ⟨k, hcount ▸ hk, hgrid ▸ ha⟩, memRead_congr hmem]

/-- Settles O19: past the region checks both runs make the same checks and the same writes. -/
theorem embedRepeatsExactly : Obligations.EmbedRepeatsExactly := by
  constructor
  · intro s s' t t' hwf hwf' he he' hsrc hgrid hapart hsrc' hgrid' hapart' ht ht' hlen hw hh htrunc hres htext hbytes
    have hcount : pixelCount s' = pixelCount s := pixelCount_congr hw hh
    rw [exec_embed_past_regions hsrc hgrid hapart] at ht
    rw [exec_embed_past_regions hsrc' hgrid' hapart', hlen, hcount, htrunc] at ht'
    by_cases hlong : 8191 < srcLen s
    · rw [if_pos hlong] at ht ht'
      cases ht; cases ht'
      exact ⟨rfl, hres, hbytes⟩
    rw [if_neg hlong] at ht ht'
    by_cases hshort : pixelCount s < 16 + 8 * srcLen s ∧ s.ctrl.truncEn = false
    · rw [if_pos hshort] at ht ht'
      cases ht; cases ht'
      exact ⟨rfl, by simp [withCode, hres], hbytes⟩
    · rw [if_neg hshort] at ht ht'
      cases ht; cases ht'
      refine ⟨by rw [embedEnd_status, embedEnd_status, he, he'], ?_, fun o ho => ?_⟩
      · simp [embedEnd, embedCount, hres, hlen, hcount]
      · exact memRead_embedEnd_congr hwf hwf' hlen hcount htext (hbytes o ho)
  · intro s s2 t hwf ht hmem hparams hops htrunc
    obtain ⟨u, hu⟩ := exec_next .embed s2
    refine ⟨u, hu, ?_⟩
    obtain ⟨hfits2, rfl⟩ | ⟨hrefused2, -, hkeep⟩ := exec_embed_fits_or_keeps hu
    · obtain ⟨hfits, rfl⟩ := exec_embed_fits_or_keeps ht |>.resolve_right fun ⟨hrefused, _⟩ =>
        hrefused (hfits2.congr hparams.symm hops.symm htrunc.symm)
      exact embedEnd_again hwf hfits.apart hmem hops
    · rw [hkeep, hmem]

/-- Settles O20: an empty text is good wherever SRC points, and all its 16 stream bits are 0. -/
theorem embedEmptyMessage : Obligations.EmbedEmptyMessage := by
  intro s hwf hn hp hgrid
  have hcount : embedCount s = 16 := by rw [embedCount_of_room (by omega), hn]
  have hbit : ∀ k, k < 16 → streamBit s k = false := fun k hk => by
    rw [streamBit, if_pos hk, hn, Nat.mul_zero, Nat.zero_testBit]
  have ht := exec_embed_of_room (.inl hn) hgrid (.inl hn) (by omega) (.inl (by omega))
  refine ⟨hbit, _, ht, exec_frame ht, embedEnd_status s, ?_, ?_, embedEnd_rlen s, fun k hk => ?_, fun a ha => ?_⟩
  · rw [← BitVec.toNat_inj, embedEnd_hdr (by omega), hn]; rfl
  · rw [← BitVec.toNat_inj, embedEnd_bitcnt, hcount]; rfl
  · rw [← hbit k hk]
    exact embeddedAt_embedEnd hwf (by omega)
  · exact memRead_embedEnd_other fun k hk => ha k (hcount ▸ hk)

end Sys2Proof.Proofs
end

section
/-! EXTRACT (41_steganographer.md R120 to R125): the header it reads, every way it ends, and which result codes each command
can end with. -/

namespace Sys2Proof.Proofs

open Sys2Proof.Machine Sys2Proof.Claims

/-! ### What EXTRACT reads from the red LSBs -/

theorem readLsbs_grid_getElem? {s : State} {k0 n k : Nat} (hk : k < n) :
    (readLsbs s (gridAddr s) k0 n)[k]? = some (lsb s (k0 + k)) := readLsbs_getElem? hk

/-- The header value is the one number of 16 digits that the LSBs spell (41_steganographer.md R120 step 2). -/
theorem isHeader_iff {s : State} {length : Nat} : isHeader s length ↔ headerValue s = length := by
  constructor
  · rintro ⟨hlt, hbits⟩
    have hdigits : readLsbs s (gridAddr s) 0 16 = bin 16 length := by
      refine List.ext_getElem? fun k => ?_
      rcases Nat.lt_or_ge k 16 with hk | hk
      · rw [readLsbs_grid_getElem? hk, bin_getElem? _ hk, Nat.zero_add, hbits k hk]
      · rw [List.getElem?_eq_none (by simpa using hk), List.getElem?_eq_none (by simpa using hk)]
    rw [headerValue, hdigits, val_bin _ _ hlt]
  · rintro rfl
    refine ⟨headerValue_lt s, fun k hk => ?_⟩
    have hdigit := getElem?_eq_testBit (readLsbs_length s (gridAddr s) 0 16) hk
    rw [readLsbs_grid_getElem? hk, Nat.zero_add] at hdigit
    exact (Option.some.inj hdigit).symm

/-! ### The states EXTRACT leaves -/

/-- The payload's length and the bits read are recorded (41_steganographer.md R120 step 4). -/
def headerRead (s : State) : State := setBitcnt (setHdr s (headerValue s)) (16 + headerValue s)

/-- How EXTRACT ends when every check passes (41_steganographer.md R120). -/
def extractEnd (s : State) : State :=
  setRlen (writeBytes (headerRead s) (dstAddr s) (bitDecode (readLsbs s (gridAddr s) 16 (headerValue s))))
    ((headerValue s + 7) / 8)

theorem extractEnd_status (s : State) : (extractEnd s).status = s.status := by simp [extractEnd, headerRead]

theorem extractEnd_hdr (s : State) : (extractEnd s).results.hdr.toNat = headerValue s := by
  simp [extractEnd, headerRead, headerValue_mod]

theorem extractEnd_bitcnt (s : State) : (extractEnd s).results.bitcnt.toNat = 16 + headerValue s := by
  simp [extractEnd, headerRead, headerBits_mod]

theorem extractEnd_rlen (s : State) : (extractEnd s).results.rlen.toNat = (headerValue s + 7) / 8 := by
  have hlt := headerValue_lt s
  rw [extractEnd, setRlen_results, BitVec.toNat_ofNat, Nat.mod_eq_of_lt (by omega)]

theorem onlyRegion_extractEnd (s : State) : onlyRegion s (extractEnd s) (dstAddr s) ((headerValue s + 7) / 8) := by
  have honly := onlyRegion_writeBytes (headerRead s) (dstAddr s)
    (bitDecode (readLsbs s (gridAddr s) 16 (headerValue s)))
  rwa [bitDecode_length, readLsbs_length] at honly

theorem decodedAt_extractEnd {s : State} (hwf : Memory.wf s.mem = true) :
    decodedAt (extractEnd s) (dstAddr s) (headerValue s) fun k => lsb s (16 + k) := by
  have hbits : ∀ k, k < (readLsbs s (gridAddr s) 16 (headerValue s)).length →
      (readLsbs s (gridAddr s) 16 (headerValue s))[k]? = some (lsb s (16 + k)) :=
    fun k hk => readLsbs_grid_getElem? (by rwa [readLsbs_length] at hk)
  have hdecoded := decodedAt_writeBytes (s := headerRead s) (dstAddr s) hwf hbits
  rwa [readLsbs_length] at hdecoded

/-! ### Every way EXTRACT ends -/

theorem regionRefused_iff {s : State} {b n : Nat} : (!inRange s b n) = true ↔ ¬regionOk s b n := by
  rw [Bool.not_eq_true', ← Bool.not_eq_true, inRange_iff]

/-- EXTRACT, check by check (41_steganographer.md R120). -/
theorem exec_extract_eq (s : State) : exec .extract s =
    if ¬gridOk s then .next (withCode s .addrErr)
    else if pixelCount s < 16 then .next (withCode (setBitcnt s (pixelCount s)) .headerErr)
    else if pixelCount s - 16 < headerValue s then
      .next (withCode (setBitcnt (setHdr s (headerValue s)) (pixelCount s)) .payloadTrunc)
    else if ¬regionOk s (dstAddr s) ((headerValue s + 7) / 8) then .next (withCode (headerRead s) .addrErr)
    else if ¬gridApart s ((headerValue s + 7) / 8) then .next (withCode (headerRead s) .overlapErr)
    else .next (extractEnd s) := by
  simp only [exec, execExtract, regionRefused_iff, overlapRefused_iff]
  rfl

section
variable {s : State} (hgrid : gridOk s)
include hgrid

theorem exec_extract_of_small (hp : pixelCount s < 16) :
    exec .extract s = .next (withCode (setBitcnt s (pixelCount s)) .headerErr) := by
  rw [exec_extract_eq, if_neg (not_not.mpr hgrid), if_pos hp]

theorem exec_extract_of_short (hp : 16 ≤ pixelCount s) (hlen : pixelCount s - 16 < headerValue s) :
    exec .extract s = .next (withCode (setBitcnt (setHdr s (headerValue s)) (pixelCount s)) .payloadTrunc) := by
  rw [exec_extract_eq, if_neg (not_not.mpr hgrid), if_neg (by omega), if_pos hlen]

theorem exec_extract_of_room (hlen : 16 + headerValue s ≤ pixelCount s) : exec .extract s =
    if ¬regionOk s (dstAddr s) ((headerValue s + 7) / 8) then .next (withCode (headerRead s) .addrErr)
    else if ¬gridApart s ((headerValue s + 7) / 8) then .next (withCode (headerRead s) .overlapErr)
    else .next (extractEnd s) := by
  rw [exec_extract_eq, if_neg (not_not.mpr hgrid), if_neg (by omega), if_neg (by omega)]

theorem exec_extract_of_apart (hlen : 16 + headerValue s ≤ pixelCount s)
    (hdst : regionOk s (dstAddr s) ((headerValue s + 7) / 8)) (hapart : gridApart s ((headerValue s + 7) / 8)) :
    exec .extract s = .next (extractEnd s) := by
  rw [exec_extract_of_room hgrid hlen, if_neg (not_not.mpr hdst), if_neg (not_not.mpr hapart)]

end

/-- Settles O21: the length is the header value; the checks in order, and past them the characters written at DST. -/
theorem extractRecoversText : Obligations.ExtractRecoversText := by
  refine ⟨decode_encode .extract, fun s _ hwf => ⟨fun hrange => ?_, exec_extract_of_small, headerValue s,
    isHeader_iff.mpr rfl, exec_extract_of_short, fun hgrid hlen hrange => ?_, fun hgrid hlen hdst hover => ?_,
    fun hgrid hlen hdst hapart => ?_⟩⟩
  · rw [exec_extract_eq, if_pos hrange]
  · rw [exec_extract_of_room hgrid hlen, if_pos hrange]
    rfl
  · rw [exec_extract_of_room hgrid hlen, if_neg (not_not.mpr hdst), if_pos hover]
    rfl
  · have ht := exec_extract_of_apart hgrid hlen hdst hapart
    exact ⟨_, ht, exec_frame ht, extractEnd_status s, extractEnd_hdr s, extractEnd_bitcnt s, extractEnd_rlen s,
      decodedAt_extractEnd hwf, onlyRegion_extractEnd s⟩

theorem hdr_setHdr_headerValue (s : State) : (setHdr s (headerValue s)).results.hdr.toNat = headerValue s := by
  rw [setHdr_results, BitVec.toNat_ofNat, headerValue_mod]

theorem bitcnt_setBitcnt_pixelCount (s u : State) :
    (setBitcnt u (pixelCount s)).results.bitcnt.toNat = pixelCount s := by
  rw [setBitcnt_results, BitVec.toNat_ofNat, pixelCount_mod]

/-- Settles O23: EXTRACT's third check. -/
theorem shortGridRaisesPayloadTrunc : Obligations.ShortGridRaisesPayloadTrunc := by
  intro s hgrid hp hlen
  have ht := exec_extract_of_short hgrid hp hlen
  exact ⟨isHeader_iff.mpr rfl, _, ht, exec_frame ht, rfl, rfl, hdr_setHdr_headerValue s,
    bitcnt_setBitcnt_pixelCount s _, rfl⟩

/-- EXTRACT leaves memory alone, or it has passed its checks. -/
theorem exec_extract_keeps_or_completes {s t : State} (h : exec .extract s = .next t) :
    t.mem = s.mem ∨ (gridApart s ((headerValue s + 7) / 8) ∧ t = extractEnd s) := by
  obtain ⟨-, rfl⟩ | ⟨-, -, rfl⟩ | ⟨-, -, -, rfl⟩ | ⟨-, -, -, rfl⟩ | ⟨-, -, -, -, rfl⟩ | ⟨-, -, -, hapart, ht⟩ :=
    execExtract_cases h
  · exact .inl rfl
  · exact .inl rfl
  · exact .inl rfl
  · exact .inl rfl
  · exact .inl rfl
  · exact .inr ⟨disjoint_iff.mp hapart, ht⟩

/-- Settles O25: EXTRACT writes at DST or nowhere, and DST is apart from the grid. -/
theorem extractKeepsGrid : Obligations.ExtractKeepsGrid := by
  intro s t ht
  obtain hmem | ⟨hapart, rfl⟩ := exec_extract_keeps_or_completes ht
  · exact ⟨fun o _ => memRead_congr hmem _, fun a _ => memRead_congr hmem a⟩
  · exact ⟨fun o ho => onlyRegion_extractEnd s _ (by omega), onlyRegion_extractEnd s⟩

/-! ### Which result codes each command ends with (60_exceptions.md R142) -/

/-- The result codes a command can end with. -/
def endCodes : Instr → List ErrCode
  | .benc => [.none, .addrErr, .overlapErr]
  | .bdec => [.none, .addrErr, .overlapErr, .decodeErr]
  | .embed => [.none, .addrErr, .overlapErr, .lengthErr, .capacityErr]
  | .extract => [.none, .addrErr, .headerErr, .payloadTrunc, .overlapErr]

theorem exec_endCodes {i : Instr} {s t : State} (he : s.status.errcode = .none) (h : exec i s = .next t) :
    t.status.errcode ∈ endCodes i := by
  cases i with
  | benc =>
    obtain ⟨-, rfl⟩ | ⟨-, -, -, rfl⟩ | ⟨-, -, -, rfl⟩ := execBenc_cases h <;> simp [endCodes, he]
  | bdec =>
    obtain ⟨-, rfl⟩ | ⟨-, -, -, rfl⟩ | ⟨-, -, -, -, rfl⟩ | ⟨-, -, -, _, -, rfl⟩ := execBdec_cases h <;>
      simp [endCodes, he]
  | embed =>
    obtain ⟨-, rfl⟩ | ⟨-, -, -, rfl⟩ | ⟨-, -, -, -, rfl⟩ | ⟨-, -, -, -, -, -, rfl⟩ | ⟨-, -, -, -, -, rfl⟩ :=
      execEmbed_cases h <;> simp [endCodes, he]
  | extract =>
    obtain ⟨-, rfl⟩ | ⟨-, -, rfl⟩ | ⟨-, -, -, rfl⟩ | ⟨-, -, -, rfl⟩ | ⟨-, -, -, -, rfl⟩ | ⟨-, -, -, -, rfl⟩ :=
      execExtract_cases h <;> simp [endCodes, he]

/-- Settles O24: of the codes each command can end with, BDEC's alone have DECODE_ERR. -/
theorem onlyBdecRaisesDecodeErr : Obligations.OnlyBdecRaisesDecodeErr := by
  intro i s t he ht hcode
  have hmem := exec_endCodes he ht
  rw [hcode] at hmem
  cases i with
  | bdec => rfl
  | _ => simp [endCodes] at hmem

/-- HEADER_ERR is EXTRACT's second check, and no other end of any command (41_steganographer.md R122). -/
theorem exec_headerErr {i : Instr} {s t : State} (he : s.status.errcode = .none) (h : exec i s = .next t)
    (hcode : t.status.errcode = .headerErr) : i = .extract ∧ gridOk s ∧ pixelCount s < 16 := by
  have hmem := exec_endCodes he h
  rw [hcode] at hmem
  cases i with
  | extract =>
    obtain ⟨-, rfl⟩ | ⟨hgrid, hp, -⟩ | ⟨-, -, -, rfl⟩ | ⟨-, -, -, rfl⟩ | ⟨-, -, -, -, rfl⟩ | ⟨-, -, -, -, rfl⟩ :=
      execExtract_cases h
    · simp at hcode
    · exact ⟨rfl, inRange_iff.mp hgrid, hp⟩
    · simp at hcode
    · simp at hcode
    · simp at hcode
    · simp [he] at hcode
  | _ => simp [endCodes] at hmem

/-- Settles O22: HEADER_ERR tells which command ended and at which check, and that check gives it. -/
theorem headerErrOnlyOnSmallGrid : Obligations.HeaderErrOnlyOnSmallGrid := by
  intro i s t he hz ht
  have hsmall : i = .extract ∧ gridOk s ∧ pixelCount s < 16 →
      t = withCode (setBitcnt s (pixelCount s)) .headerErr := by
    rintro ⟨rfl, hgrid, hp⟩
    rw [exec_extract_of_small hgrid hp] at ht
    cases ht
    rfl
  refine ⟨⟨exec_headerErr he ht, fun h => by rw [hsmall h]; rfl⟩, fun hcode => ?_⟩
  rw [hsmall (exec_headerErr he ht hcode)]
  exact ⟨bitcnt_setBitcnt_pixelCount s s, congrArg ResultRegs.hdr hz, rfl⟩

end Sys2Proof.Proofs
end

section
/-! EMBED and EXTRACT together: what EXTRACT reads from the memory EMBED left (41_steganographer.md R126, R127). -/

namespace Sys2Proof.Proofs

open Sys2Proof.Machine Sys2Proof.Claims

/-! ### What EXTRACT reads after EMBED -/

/-- `s2` has the memory that EMBED left at `s`, and the same grid. -/
structure AfterEmbed (s s2 : State) : Prop where
  mem : s2.mem = (embedEnd s).mem
  params : s2.params = s.params
  addr : gridAddr s2 = gridAddr s
  count : pixelCount s2 = pixelCount s

namespace AfterEmbed

variable {s s2 : State} (h : AfterEmbed s s2)
include h

theorem gridOk (hgrid : gridOk s) : gridOk s2 := by
  simpa only [Claims.gridOk, regionOk, h.params, h.addr, h.count] using hgrid

/-- EXTRACT reads each stream bit where EMBED wrote it (41_steganographer.md R111). -/
theorem lsb_eq_streamBit (hwf : Memory.wf s.mem = true) {k : Nat} (hk : k < embedCount s) :
    lsb s2 k = streamBit s k := by
  obtain ⟨hbit, -⟩ := embeddedAt_embedEnd hwf hk
  rwa [lsb, h.addr, memRead_congr h.mem]

/-- A grid of 16 pixels holds the whole header, which is the payload length (41_steganographer.md R114). -/
theorem headerValue_eq (hwf : Memory.wf s.mem = true) (hn : srcLen s ≤ 8191) (hp : 16 ≤ pixelCount s) :
    headerValue s2 = 8 * srcLen s := by
  have hcount : 16 ≤ embedCount s := Nat.le_min.mpr ⟨by omega, hp⟩
  refine isHeader_iff.mp ⟨by omega, fun k hk => ?_⟩
  rw [h.lsb_eq_streamBit hwf (by omega), streamBit, if_pos hk]

/-- A grid that holds the whole stream holds the text's digits after the header (41_steganographer.md R126). -/
theorem readLsbs_eq (hwf : Memory.wf s.mem = true) (hroom : 16 + 8 * srcLen s ≤ pixelCount s) :
    readLsbs s2 (gridAddr s2) 16 (8 * srcLen s) = bitEncode (sourceBytes s) := by
  have hlength : (bitEncode (sourceBytes s)).length = 8 * srcLen s := by simp
  refine List.ext_getElem? fun k => ?_
  rcases Nat.lt_or_ge k (8 * srcLen s) with hk | hk
  · have hbit : streamBit s (16 + k) = textBit s k := by
      rw [streamBit, if_neg (by omega), Nat.add_sub_cancel_left]
    have hcount : 16 + k < embedCount s := by rw [embedCount_of_room hroom]; omega
    rw [readLsbs_grid_getElem? hk, h.lsb_eq_streamBit hwf hcount, hbit, bitEncode_sourceBytes_getElem? hk]
  · rw [List.getElem?_eq_none (by rwa [readLsbs_length]), List.getElem?_eq_none (by rwa [hlength])]

/-- With the header read right and room for the payload, EXTRACT's output is the text. -/
theorem memRead_extractEnd (hwf : Memory.wf s.mem = true) (hroom : 16 + 8 * srcLen s ≤ pixelCount s)
    (hheader : headerValue s2 = 8 * srcLen s) {j : Nat} (hj : j < srcLen s) :
    memRead (extractEnd s2) (dstAddr s2 + j) = memRead s (srcAddr s + j) := by
  have htext : bitDecode (readLsbs s2 (gridAddr s2) 16 (headerValue s2)) = sourceBytes s := by
    rw [hheader, h.readLsbs_eq hwf hroom, bitDecode_bitEncode]
  have hwf2 : Memory.wf (headerRead s2).mem = true := h.mem ▸ embedEnd_wf hwf
  have hj' : j < (sourceBytes s).length := by simpa using hj
  calc memRead (extractEnd s2) (dstAddr s2 + j)
      = memRead (writeBytes (headerRead s2) (dstAddr s2) (sourceBytes s)) (dstAddr s2 + j) := by rw [← htext]; rfl
    _ = (sourceBytes s)[j] := memRead_writeBytes hwf2 hj'
    _ = memRead s (srcAddr s + j) := readBytes_getElem _ _ _ _ hj'

end AfterEmbed

/-- Settles O26: EXTRACT reads the header EMBED wrote, then the very digits of the text. -/
theorem embedExtractRoundTrip : Obligations.EmbedExtractRoundTrip := by
  refine ⟨fun s t _ htrunc ht he => ?_,
    fun s s2 t _ hwf _ ht he hroom hmem hparams he2 haddr hw hh hdst hapart => ?_⟩
  · obtain ⟨hfits, -⟩ := exec_embed_completes ht he
    simpa [htrunc] using hfits.room
  · obtain ⟨hfits, rfl⟩ := exec_embed_completes ht he
    have hafter : AfterEmbed s s2 := ⟨hmem, hparams, haddr, pixelCount_congr hw hh⟩
    have hheader := hafter.headerValue_eq hwf hfits.length (by omega)
    have hbytes : (headerValue s2 + 7) / 8 = srcLen s := by omega
    have hlen : 16 + headerValue s2 ≤ pixelCount s2 := by rwa [hheader, hafter.count]
    have hu := exec_extract_of_apart (hafter.gridOk hfits.grid) hlen (hbytes ▸ hdst) (hbytes ▸ hapart)
    exact ⟨_, hu, by rw [extractEnd_status, he2], by rw [extractEnd_hdr, hheader], by rw [extractEnd_bitcnt, hheader],
      by rw [extractEnd_rlen, hbytes], fun j => hafter.memRead_extractEnd hwf hroom hheader⟩

/-- Settles O27: the header, if it fits, is whole, and the grid ends before the payload it announces does. -/
theorem truncatedEmbedIsDetected : Obligations.TruncatedEmbedIsDetected := by
  intro s s2 t hwf _ _ ht he hshort hmem hparams _ haddr hw hh
  obtain ⟨hfits, rfl⟩ := exec_embed_completes ht he
  have hafter : AfterEmbed s s2 := ⟨hmem, hparams, haddr, pixelCount_congr hw hh⟩
  have hgrid := hafter.gridOk hfits.grid
  rcases Nat.lt_or_ge (pixelCount s) 16 with hp | hp
  · exact ⟨_, exec_extract_of_small hgrid (hafter.count ▸ hp), fun _ => rfl, fun _ => by omega⟩
  · have hheader := hafter.headerValue_eq hwf hfits.length hp
    have hlen : pixelCount s2 - 16 < headerValue s2 := by rw [hheader, hafter.count]; omega
    refine ⟨_, exec_extract_of_short hgrid (hafter.count ▸ hp) hlen, fun _ => by omega, fun _ => ⟨rfl, ?_, ?_⟩⟩
    · rw [← hheader]
      exact hdr_setHdr_headerValue s2
    · rw [← hafter.count]
      exact bitcnt_setBitcnt_pixelCount s2 _

end Sys2Proof.Proofs
end

section
/-! Errors and the interrupt (60_exceptions.md R140 to R150): which check a command reports and what its error records, how
an illegal word ends, that a bus error changes nothing, and when `irq` rises and falls. -/

namespace Sys2Proof.Proofs

open Sys2Proof.Machine Sys2Proof.Claims

/-! ### The check a command reports, and what its error records -/

/-- `s` with an error recorded: its code, and beside it the result registers of R140's last column. -/
def errorState (s : State) (e : ErrCode) : State := withCode { s with results := recorded s e } e

/-- The outcome `o` of command `i` in `s` has code `e`, and an error is recorded precisely where the result registers were
clear (60_exceptions.md R142, R143). -/
def EndsWith (i : Instr) (s : State) (o : Host.Outcome State Fault Refusal) (e : ErrCode) : Prop :=
  ∃ t, o = .next t ∧ t.status.errcode = e ∧
    (e ≠ .none → s.cmd = encode i → s.results = .zero → t = errorState s e)

/-- A command and the table of its checks branch alike. -/
theorem EndsWith.ite {i : Instr} {s : State} {c : Prop} [Decidable c] {o o' : Host.Outcome State Fault Refusal}
    {e e' : ErrCode} (hfails : c → EndsWith i s o e) (hpasses : ¬c → EndsWith i s o' e') :
    EndsWith i s (if c then o else o') (if c then e else e') := by
  split
  · next h => exact hfails h
  · next h => exact hpasses h

theorem EndsWith.error {i : Instr} {s : State} {e : ErrCode} {r : ResultRegs}
    (hr : s.cmd = encode i → s.results = .zero → recorded s e = r) :
    EndsWith i s (.next (withCode { s with results := r } e)) e :=
  ⟨_, rfl, rfl, fun _ hcmd hz => by rw [errorState, hr hcmd hz]⟩

theorem EndsWith.completed {i : Instr} {s t : State} (ht : t.status.errcode = .none) :
    EndsWith i s (.next t) .none :=
  ⟨t, rfl, ht, fun hne => absurd rfl hne⟩

/-- An error that leaves the result registers as the command's start cleared them. -/
theorem EndsWith.cleared {i : Instr} {s : State} {e : ErrCode} (hr : s.cmd = encode i → recorded s e = .zero) :
    EndsWith i s (.next (withCode s e)) e :=
  .error fun hcmd hz => (hr hcmd).trans hz.symm

/-- CMD's word tells EXTRACT from the other commands (30_encoding.md R71). -/
theorem encode_eq_four {i : Instr} : encode i = 0x00000004 ↔ i = .extract := by
  cases i <;> decide

section
variable {i : Instr} {s : State} (hi : i ≠ .extract) (hcmd : s.cmd = encode i)
include hi hcmd

theorem cmd_ne_four : s.cmd ≠ 0x00000004 := fun h => hi (encode_eq_four.mp (hcmd.symm.trans h))

/-- The region errors come before any result, but for EXTRACT's output region (60_exceptions.md R140). -/
theorem recorded_addrErr : recorded s .addrErr = .zero := if_neg fun h => cmd_ne_four hi hcmd h.1

theorem recorded_overlapErr : recorded s .overlapErr = .zero := if_neg (cmd_ne_four hi hcmd)

end

/-- BDEC's symbol check fails exactly when the symbols have no digits (40_bitcodec.md R95). -/
theorem anyInvalidSymbol_iff {s : State} :
    ((List.range (srcLen s)).any fun k => sourceSymbol s k != 0x30 && sourceSymbol s k != 0x31) = true ↔
      parseSymbols (sourceBytes s) = none := by
  rw [parseSymbols_eq_none]
  simp [sourceBytes, readBytes, sourceSymbol]

section
variable {s : State} (he : s.status.errcode = .none)
include he

theorem exec_benc_endsWith : EndsWith .benc s (exec .benc s) (firstFailing s .benc) := by
  rw [exec_benc_eq, firstFailing]
  exact .ite (fun _ => .cleared (recorded_addrErr (by decide))) fun _ =>
    .ite (fun _ => .cleared (recorded_overlapErr (by decide))) fun _ => .completed (by simp [he])

theorem exec_bdec_endsWith : EndsWith .bdec s (exec .bdec s) (firstFailing s .bdec) := by
  rw [exec_bdec_eq, firstFailing]
  refine .ite (fun _ => .cleared (recorded_addrErr (by decide))) fun _ =>
    .ite (fun _ => .cleared (recorded_overlapErr (by decide))) fun _ => ?_
  cases hparse : parseSymbols (sourceBytes s) with
  | none =>
    rw [if_pos (anyInvalidSymbol_iff.mpr hparse)]
    exact .cleared fun _ => rfl
  | some digits =>
    rw [if_neg (by rw [anyInvalidSymbol_iff, hparse]; nofun)]
    exact .completed (by simp [bdecEnd, he])

theorem exec_embed_endsWith : EndsWith .embed s (exec .embed s) (firstFailing s .embed) := by
  simp only [exec_embed_eq, firstFailing, and_comm (a := s.ctrl.truncEn = false)]
  refine .ite (fun _ => .cleared (recorded_addrErr (by decide))) fun _ =>
    .ite (fun _ => .cleared (recorded_overlapErr (by decide))) fun _ => .ite (fun _ => .cleared fun _ => rfl) fun _ =>
    .ite (fun _ => .error fun _ hz => ?_) fun _ => .completed (by rw [embedEnd_status, he])
  rw [hz, recorded]

theorem exec_extract_endsWith : EndsWith .extract s (exec .extract s) (firstFailing s .extract) := by
  rw [exec_extract_eq, firstFailing]
  refine .ite (fun hgrid => .cleared fun _ => if_neg fun h => hgrid h.2) fun hgrid =>
    .ite (fun _ => .error fun _ hz => ?_) fun _ => .ite (fun _ => .error fun _ hz => ?_) fun _ =>
    .ite (fun _ => .error fun hcmd hz => ?_) fun _ => .ite (fun _ => .error fun hcmd hz => ?_) fun _ =>
    .completed (by rw [extractEnd_status, he])
  · rw [hz, recorded]
  · rw [setHdr_results, hz, recorded]
  · rw [setHdr_results, hz]
    exact if_pos ⟨hcmd, not_not.mp hgrid⟩
  · rw [setHdr_results, hz]
    exact if_pos hcmd

/-- Every command reports the first of its checks that fails, and records that error precisely. -/
theorem exec_endsWith (i : Instr) : EndsWith i s (exec i s) (firstFailing s i) := by
  cases i with
  | benc => exact exec_benc_endsWith he
  | bdec => exact exec_bdec_endsWith he
  | embed => exact exec_embed_endsWith he
  | extract => exact exec_extract_endsWith he

end

/-- Settles O30: every command walks its checks in the table's order, and an illegal word has none. -/
theorem firstFailingCheckIsReported : Obligations.FirstFailingCheckIsReported := by
  refine ⟨fun i s t he ht => ?_, fun s hw => execute_of_illegalWord hw⟩
  obtain ⟨t', ht', hcode, -⟩ := exec_endsWith he i
  cases ht.symm.trans ht'
  exact hcode

/-- Execute from a clean start completes or records an error precisely, an illegal word's too (60_exceptions.md R143). -/
theorem execute_completes_or_records {s t : State} (he : s.status.errcode = .none) (hz : s.results = .zero)
    (h : execute s = .next t) : t.status.errcode = .none ∨ ∃ e, t = errorState s e := by
  obtain ⟨i, hcmd, hexec⟩ | ⟨-, rfl⟩ := execute_cases h
  · obtain ⟨t', ht', hcode, herror⟩ := exec_endsWith he i
    cases hexec.symm.trans ht'
    by_cases hnone : firstFailing s i = .none
    · exact .inl (hcode.trans hnone)
    · exact .inr ⟨_, herror hnone hcmd hz⟩
  · refine .inr ⟨.illegalCmd, ?_⟩
    rw [errorState, show recorded s .illegalCmd = s.results from hz.symm]
    rfl

/-- Settles O31: the completion step adds BUSY and DONE to what Execute records. -/
theorem errorsArePrecise : Obligations.ErrorsArePrecise := by
  intro s u t hu hb hclean ht herr
  rw [step_of_engineNext hu] at ht
  obtain ⟨env, rfl⟩ := engineNext_eq hu
  obtain ⟨-, he, hz⟩ := startedClean_iff.mp hclean hb
  obtain ⟨hidle, -⟩ | ⟨-, v, hv, rfl⟩ := engineTurn_cases ht
  · simp [hb] at hidle
  · obtain hnone | ⟨e, rfl⟩ := execute_completes_or_records (s := { s with env := env }) he hz hv
    · exact absurd hnone herr
    · rfl

/-! ### Illegal command words -/

/-- The completion step of an illegal word (60_exceptions.md R141). -/
theorem engineTurn_of_illegalWord {s : State} (hb : s.status.busy = true) (hw : illegalWord s.cmd) :
    engineTurn s = .next (finish (raise .illegalCmd s)) := by
  rw [engineTurn, if_pos hb, engineStep, execute_of_illegalWord hw]
  rfl

/-- Settles O4: a command's start, then the engine's turn on the word it left in CMD. -/
theorem illegalWordCompletesWithIllegalCmd : Obligations.IllegalWordCompletesWithIllegalCmd := by
  refine ⟨rfl, fun s ts w hidle hw hs => ?_⟩
  obtain ⟨u, hstep, -, hu⟩ := commandStart s (.engine :: ts) w hidle hs
  refine ⟨u, hstep, hu, ?_⟩
  subst hu
  rw [step_of_engineNext (.inr ⟨ts, rfl, rfl⟩), engineTurn_of_illegalWord rfl hw]
  rfl

/-! ### Bus errors and the interrupt -/

/-- Settles O44: the response is all that a bad access leaves, and `irq` looks at neither script nor history. -/
theorem busErrorsChangeNothing : Obligations.BusErrorsChangeNothing :=
  fun _ _ _ hbad hs => ⟨step_of_badAccess hbad hs, rfl⟩

/-- Every completion step sets DONE, and the enable alone decides `irq` (60_exceptions.md R150). -/
theorem step_completion_irq {s u t : State} (hu : engineNext s u) (hb : s.status.busy = true)
    (h : step s = .next t) : t.status.done = true ∧ irq t = s.ctrl.ie := by
  rw [step_of_engineNext hu] at h
  obtain ⟨env, rfl⟩ := engineNext_eq hu
  obtain ⟨hidle, -⟩ | ⟨-, v, hv, rfl⟩ := engineTurn_cases h
  · simp [hb] at hidle
  · obtain ⟨-, hctrl, -⟩ := execute_frame hv
    exact ⟨rfl, by simp [irq, hctrl]⟩

/-- Settles O47, clause by clause: a completion, a CTRL write, a write to STATUS, a command's start, HAZ, a bus error. -/
theorem interruptFollowsDone : Obligations.InterruptFollowsDone := by
  refine ⟨fun s => by simp [irq], fun _ _ _ hu hb h => step_completion_irq hu hb h, fun s v ts hidle hs => ?_,
    fun s v ts hv hs => ⟨_, statusWriteClears s v ts hs, by simp [irq, ackedStatus, hv]⟩, fun s v ts hidle hs => ?_,
    fun _ _ => rfl, fun _ _ _ hbad hs => ⟨_, step_of_badAccess hbad hs, rfl⟩⟩
  · refine ⟨_, step_regWrite (by decide) hs, ?_⟩
    rw [show regOfOffset 0x00 = .ctrl from rfl, writeReg_idle _ v hidle]
    exact ⟨rfl, rfl⟩
  · obtain ⟨t, hstep, hirq, -⟩ := commandStart s ts v hidle hs
    exact ⟨t, hstep, hirq⟩

end Sys2Proof.Proofs
end

section
/-! Power-on and reset (70_reset_and_hazards.md R170 to R173): what a reset clears, which bytes a reset while BUSY
leaves free, and that memory at power-on is MEM_INIT; and that of the grid's size EXTRACT sees only the pixel count
(R178). -/

namespace Sys2Proof.Proofs

open Sys2Proof.Machine Sys2Proof.Claims

/-! ### EXTRACT and the shape of the grid -/

theorem status_eq_of_flagsKept {s t : State} (hflags : flagsKept s t) :
    t.status = ⟨s.status.busy, s.status.done, s.status.haz, t.status.errcode⟩ := by
  obtain ⟨hbusy, hdone, hhaz⟩ := hflags
  rw [← hbusy, ← hdone, ← hhaz]

/-- Settles O28: the two runs make the same checks and the same writes, and no command changes BUSY, DONE or HAZ. -/
theorem extractDependsOnlyOnPixelCount : Obligations.ExtractDependsOnlyOnPixelCount := by
  intro s s' t t' hparams hmem hstatus hresults hgrid hdst hcount ht ht'
  have hend : SameEnd (exec .extract s) (exec .extract s') :=
    execExtract_sameEnd ⟨hparams, hmem, hresults, by rw [hstatus]⟩ hgrid hcount hdst
  rw [ht, ht'] at hend
  obtain ⟨hdata⟩ := hend
  refine ⟨hdata.mem, ?_, hdata.results⟩
  rw [status_eq_of_flagsKept (exec_flags ht), status_eq_of_flagsKept (exec_flags ht'), hstatus, hdata.errcode]

/-! ### The write set as addresses (70_reset_and_hazards.md R172) -/

theorem writeSet_eq_map (i : Instr) (s : State) :
    writeSet i s = (List.range (writeCount s i)).map (writeAddr s i) := by
  cases i <;> rfl

theorem mem_writeSet {i : Instr} {s : State} {a : Nat} :
    a ∈ writeSet i s ↔ ∃ k, k < writeCount s i ∧ a = writeAddr s i k := by
  simp [writeSet_eq_map, eq_comm]

@[simp] theorem writeSet_length (i : Instr) (s : State) : (writeSet i s).length = writeCount s i := by
  simp [writeSet_eq_map]

theorem writeAddr_injective (s : State) (i : Instr) : Function.Injective (writeAddr s i) := by
  intro k k' h
  cases i <;> simp only [writeAddr] at h <;> omega

/-- A command writes no byte of its write set twice. -/
theorem writeSet_nodup (i : Instr) (s : State) : (writeSet i s).Nodup := by
  rw [writeSet_eq_map]
  exact List.nodup_range.map (writeAddr_injective s i)

/-! ### The free bytes -/

/-- Each address drawn for once holds the free value drawn for it. -/
theorem memRead_drawBytes {s : State} {as : List Nat} {k : Nat} (hwf : Memory.wf s.mem = true) (hnodup : as.Nodup)
    (hk : k < as.length) : memRead (drawBytes s as) as[k] = Config.freeByte (s.env.draws + k) := by
  induction as generalizing s k with
  | nil => simp at hk
  | cons a as ih =>
    obtain ⟨hfresh, hnodup⟩ := List.nodup_cons.mp hnodup
    rw [drawBytes]
    cases k with
    | zero => exact (memRead_drawBytes_other hfresh).trans (memRead_memWrite_self a _ hwf)
    | succ k =>
      rw [List.getElem_cons_succ, ih (Memory.wf_write a _ hwf) hnodup (by simpa using hk)]
      simp [Nat.add_assoc, Nat.add_comm 1]

theorem memRead_drawBytes_writeSet {i : Instr} {s : State} {k : Nat} (hwf : Memory.wf s.mem = true)
    (hk : k < writeCount s i) :
    memRead (drawBytes s (writeSet i s)) (writeAddr s i k) = Config.freeByte (s.env.draws + k) := by
  have hdraw := memRead_drawBytes hwf (writeSet_nodup i s) (k := k) (by simpa using hk)
  simpa [writeSet_eq_map] using hdraw

/-! ### Which bytes a reset draws (70_reset_and_hazards.md R171, R172) -/

theorem abandonedSet_of_idle {s : State} (hidle : s.status.busy = false) : abandonedSet s = [] := by
  simp [abandonedSet, hidle]

theorem abandonedSet_of_illegalWord {s : State} (hw : illegalWord s.cmd) : abandonedSet s = [] := by
  obtain ⟨r, hr⟩ := decode_error (ne_encode_of_illegalWord hw)
  simp [abandonedSet, hr]

/-- The outcome the command would have had decides. -/
theorem abandonedSet_of_exec {i : Instr} {s v : State} (hb : s.status.busy = true) (hcmd : s.cmd = encode i)
    (hv : exec i s = .next v) :
    abandonedSet s = if v.status.errcode = .none then writeSet i s else [] := by
  simp [abandonedSet, hb, decode_eq_ok.mpr hcmd, hv]

theorem sameData_withScript (s : State) (ts : List Turn) : SameData s (s.withScript ts) := ⟨rfl, rfl, rfl, rfl⟩

theorem sameOperands_withScript (i : Instr) (s : State) (ts : List Turn) : sameOperands i s (s.withScript ts) := by
  cases i with
  | benc | bdec => exact ⟨rfl, rfl, rfl⟩
  | embed => exact ⟨rfl, rfl, rfl, rfl, rfl, rfl⟩
  | extract => exact ⟨rfl, rfl, rfl, rfl⟩

/-- The outcome of a command does not depend on the turns still to come. -/
theorem exec_withScript_errcode {i : Instr} {s v : State} (ts : List Turn) (hv : exec i s = .next v) :
    ∃ v', exec i (s.withScript ts) = .next v' ∧ v'.status.errcode = v.status.errcode := by
  have hend := exec_sameEnd (sameData_withScript s ts) (sameOperands_withScript i s ts)
  obtain ⟨v', hv'⟩ := exec_next i (s.withScript ts)
  rw [hv, hv'] at hend
  obtain ⟨hdata⟩ := hend
  exact ⟨v', hv', hdata.errcode⟩

/-! ### The step that asserts `rst` -/

theorem step_reset {s : State} {ts : List Turn} (hs : hostNext s .reset ts) :
    step s = .next (record .reset .accepted (assertReset (s.withScript ts))) := step_of_hostNext hs

/-- A reset changes no byte but of the write set of the command in CMD. -/
theorem memRead_assertReset_ne {s : State} {a : Nat} (h : memRead (assertReset s) a ≠ memRead s a) :
    ∃ i k, s.cmd = encode i ∧ k < writeCount s i ∧ a = writeAddr s i k := by
  have hmem : a ∈ abandonedSet s := by
    by_contra hout
    exact h (memRead_drawBytes_other hout)
  obtain ⟨i, -, hcmd, -, -, hset⟩ := mem_abandonedSet hmem
  obtain ⟨k, hk, ha⟩ := mem_writeSet.mp hset
  exact ⟨i, k, hcmd, hk, ha⟩

/-- With nothing abandoned, memory is as it was. -/
theorem assertReset_mem_of_nil {s : State} (h : abandonedSet s = []) : (assertReset s).mem = s.mem := by
  rw [assertReset, h]
  rfl

/-- What the reset leaves of a command that would have completed with NONE (70_reset_and_hazards.md R172). -/
theorem assertReset_of_completing {i : Instr} {s v : State} (hwf : Memory.wf s.mem = true)
    (hb : s.status.busy = true) (hcmd : s.cmd = encode i) (hv : exec i s = .next v) (he : v.status.errcode = .none) :
    (assertReset s).env.draws = s.env.draws + writeCount s i ∧
      (∀ k, k < writeCount s i → memRead (assertReset s) (writeAddr s i k) = Config.freeByte (s.env.draws + k)) ∧
      ∀ a, (∀ k, k < writeCount s i → a ≠ writeAddr s i k) → memRead (assertReset s) a = memRead s a := by
  have hset : abandonedSet s = writeSet i s := by rw [abandonedSet_of_exec hb hcmd hv, if_pos he]
  rw [assertReset, hset]
  refine ⟨by simp [drawBytes_env], fun k hk => memRead_drawBytes_writeSet hwf hk, fun a ha => ?_⟩
  have hout : a ∉ writeSet i s := fun hmem => by
    obtain ⟨k, hk, hak⟩ := mem_writeSet.mp hmem
    exact ha k hk hak
  exact memRead_drawBytes_other hout

/-- Settles O48: while idle nothing is abandoned, and while BUSY only bytes of the write set are. -/
theorem resetClearsRegisters : Obligations.ResetClearsRegisters := by
  intro s ts hs
  refine ⟨_, step_reset hs, rfl, rfl, rfl, rfl, rfl, rfl, fun hidle => ?_, fun a ha => ?_⟩
  · exact assertReset_mem_of_nil (s := s.withScript ts) (abandonedSet_of_idle hidle)
  · exact memRead_assertReset_ne (s := s.withScript ts) ha

/-- Only the engine's turn and a reset end a command (70_reset_and_hazards.md R172). -/
theorem engineNext_or_reset_of_busy_falls {s t : State} (h : step s = .next t) (hb : s.status.busy = true)
    (hidle : t.status.busy = false) : (∃ u, engineNext s u) ∨ ∃ ts, hostNext s .reset ts := by
  obtain ⟨u, hu, -⟩ | ⟨tr, ts, t', r, hs, heffect, rfl⟩ := step_effect h
  · exact .inl ⟨u, hu⟩
  · cases heffect with
    | keep | ack | haz => simp [hb] at hidle
    | start _ hidle' | store _ _ _ hidle' | write _ _ _ hidle' => simp [hb] at hidle'
    | reset => exact .inr ⟨ts, hs⟩

/-- Settles O49: the outcome the command would have had decides whether its write set is drawn, and the script plays no
part in the outcome. -/
theorem resetWhileBusy : Obligations.ResetWhileBusy := by
  refine ⟨fun s ts hwf hb hs => ?_, fun s t h hb hidle => engineNext_or_reset_of_busy_falls h hb hidle⟩
  refine ⟨_, step_reset hs, rfl, rfl, fun hw => ?_, fun i v hcmd hv => ?_⟩
  · exact assertReset_mem_of_nil (s := s.withScript ts) (abandonedSet_of_illegalWord hw)
  · obtain ⟨v', hv', herr⟩ := exec_withScript_errcode ts hv
    rw [← herr]
    have hset := abandonedSet_of_exec (s := s.withScript ts) hb hcmd hv'
    exact ⟨fun he => assertReset_mem_of_nil (hset.trans (if_neg he)),
      fun he => assertReset_of_completing hwf hb hcmd hv' he⟩

/-! ### Power-on (70_reset_and_hazards.md R173) -/

/-- Settles O50: the registers are those of power-on, and an idle buffer port answers with the memory's byte. -/
theorem powerOnHoldsMemInit : Obligations.PowerOnHoldsMemInit := by
  refine fun p init => ⟨rfl, rfl, rfl, rfl, rfl, rfl, fun a ha => ?_⟩
  exact ⟨_, step_bufRead_idle (s := (State.powerOn p init).withScript [rd8 a]) (ts := []) ha rfl rfl, rfl⟩

/-- Settles O51, part by part of the invariant: no byte is listed and no command is in flight. -/
theorem resetMeetsInvariant : Obligations.ResetMeetsInvariant :=
  inv_iff.mpr ⟨rfl, memOk_iff.mpr ⟨Memory.wf_nil, Memory.below_nil _⟩, nofun, rfl⟩

end Sys2Proof.Proofs
end
